-- ==== Sys2Proof/Word.lean ====
section
/-! DEFINITION. The two word types of the core (spec/00_scope.md R7, R8): a memory byte or 8-bit
register, and a 16-bit address. Their `+` is taken modulo their width, as R8 says. -/

namespace Sys2Proof

/-- `u8`: A, X, Y, SP, a memory byte, an instruction byte (00_scope.md R7, R8). -/
abbrev Byte := BitVec 8

/-- `u16`: PC, an effective address, a pointer, a 16-bit operand (00_scope.md R7, R8). -/
abbrev Addr := BitVec 16

end Sys2Proof
end

