-- ==== Sys2Proof/Config.lean ====
section
/-! DEFINITION. The fixed values of the core (spec/00_scope.md R7; 10_state.md R35). Nothing here is
open. The one open parameter of the spec, CYCLE_BASE (92_eei_decisions.md D7), is an argument of
`Machine.engineStep`; its default stands in the opcode table of Decode.lean, whose descriptors
hold the base cost (30_encoding.md R63). -/

namespace Sys2Proof.Config

/-- The memory holds 65 536 bytes, every address backed (20_memory.md R40). -/
def memorySize : Nat := 65536

/-- The value reset puts in PC itself; no vector is read (70_reset_and_hazards.md R180). -/
def resetPc : Addr := 0xFFFC#16

/-- The value reset puts in SP (70_reset_and_hazards.md R180). -/
def resetSp : Byte := 0xFF#8

/-- What a byte the host never wrote reads as (20_memory.md R41). -/
def unwrittenByte : Byte := 0x00#8

/-- PAGE_CROSS_PENALTY, fixed at 1 extra cycle (00_scope.md R7, 40_execute_engine.md R93). -/
def pageCrossPenalty : Nat := 1

end Sys2Proof.Config
end

