-- ==== Sys2Proof/Syntax.lean ====
section
/-! DEFINITION. The instructions: one constructor per row of spec/opcode_table.json
(30_encoding.md R66), the names of the operations and addressing modes, the instruction descriptor
of R63, and the decoder's result type. -/

namespace Sys2Proof

/-- The six operations (00_scope.md R3). -/
inductive Operation where
  | lda | ldx | ldy | jmp | inx | iny
deriving DecidableEq, Repr

/-- The addressing modes of the opcode map (30_encoding.md R60, R66). `indirect` is JMP's alone. -/
inductive Mode where
  | implied | immediate
  | zeroPage | zeroPageX | zeroPageY
  | absolute | absoluteX | absoluteY
  | indirectX | indirectY
  | indirect
deriving DecidableEq, Repr

/-- An instruction descriptor: "addressing mode, operation, base cycle cost, 'add one cycle on
page-cross' flag" (30_encoding.md R63). -/
structure Descriptor where
  operation  : Operation
  mode       : Mode
  baseCycles : Nat
  pageCross  : Bool
deriving DecidableEq, Repr

/-- The 22 instructions. A `Byte` operand is `op8`, an `Addr` operand is `hi:lo`
(30_encoding.md R61, R62). -/
inductive Instr where
  | ldaImm (v : Byte)
  | ldaZp (b : Byte)
  | ldaZpX (b : Byte)
  | ldaAbs (w : Addr)
  | ldaAbsX (w : Addr)
  | ldaAbsY (w : Addr)
  | ldaIndX (b : Byte)
  | ldaIndY (b : Byte)
  | ldxImm (v : Byte)
  | ldxZp (b : Byte)
  | ldxZpY (b : Byte)
  | ldxAbs (w : Addr)
  | ldxAbsY (w : Addr)
  | ldyImm (v : Byte)
  | ldyZp (b : Byte)
  | ldyZpX (b : Byte)
  | ldyAbs (w : Addr)
  | ldyAbsX (w : Addr)
  | jmpAbs (w : Addr)
  | jmpInd (w : Addr)
  | inx
  | iny
deriving DecidableEq, Repr

/-- The operation an instruction performs (30_encoding.md R66, column mnemonic). -/
def Instr.operation : Instr → Operation
  | .ldaImm _ | .ldaZp _ | .ldaZpX _ | .ldaAbs _ | .ldaAbsX _ | .ldaAbsY _ | .ldaIndX _ | .ldaIndY _ => .lda
  | .ldxImm _ | .ldxZp _ | .ldxZpY _ | .ldxAbs _ | .ldxAbsY _ => .ldx
  | .ldyImm _ | .ldyZp _ | .ldyZpX _ | .ldyAbs _ | .ldyAbsX _ => .ldy
  | .jmpAbs _ | .jmpInd _ => .jmp
  | .inx => .inx
  | .iny => .iny

/-- The addressing mode of an instruction (30_encoding.md R66, column addressing mode). -/
def Instr.mode : Instr → Mode
  | .ldaImm _ | .ldxImm _ | .ldyImm _ => .immediate
  | .ldaZp _ | .ldxZp _ | .ldyZp _ => .zeroPage
  | .ldaZpX _ | .ldyZpX _ => .zeroPageX
  | .ldxZpY _ => .zeroPageY
  | .ldaAbs _ | .ldxAbs _ | .ldyAbs _ | .jmpAbs _ => .absolute
  | .ldaAbsX _ | .ldyAbsX _ => .absoluteX
  | .ldaAbsY _ | .ldxAbsY _ => .absoluteY
  | .ldaIndX _ => .indirectX
  | .ldaIndY _ => .indirectY
  | .jmpInd _ => .indirect
  | .inx | .iny => .implied

/-- What the decoder answers: an instruction and the bytes after it, or a rejection by name. -/
inductive Decoded where
  /-- The instruction the bytes begin with, and the bytes after it. -/
  | ok (i : Instr) (rest : List Byte)
  /-- The first byte is in no row of the opcode map (30_encoding.md R68). -/
  | undefinedOpcode (op : Byte)
  /-- There are fewer bytes than the opcode's format asks for. The machine never meets this: memory
  has a byte at every address (20_memory.md R40; notes/assumptions/19.md). -/
  | truncated
deriving DecidableEq, Repr

end Sys2Proof
end

