-- ==== Sys2Proof/WellFormed.lean ====
section
/-! DEFINITION. Which terms of Syntax.lean stand for something of the opcode map
(spec/30_encoding.md R66, R67; 90_conflicts.md C5). The operand fields need no check: "No operand
byte value is illegal" (R68), and their widths are in their types. -/

namespace Sys2Proof

/-- The (operation, addressing mode) pairs that have an opcode byte (30_encoding.md R66). "No byte
encodes the other combinations, such as LDX (Indirect,X) or LDY Absolute,Y". -/
def pairExists : Operation → Mode → Bool
  | .lda, m => m == .immediate || m == .zeroPage || m == .zeroPageX || m == .absolute
      || m == .absoluteX || m == .absoluteY || m == .indirectX || m == .indirectY
  | .ldx, m => m == .immediate || m == .zeroPage || m == .zeroPageY || m == .absolute || m == .absoluteY
  | .ldy, m => m == .immediate || m == .zeroPage || m == .zeroPageX || m == .absolute || m == .absoluteX
  | .jmp, m => m == .absolute || m == .indirect
  | .inx, m => m == .implied
  | .iny, m => m == .implied

/-- The page-cross flag is set "in exactly the descriptors of the Absolute,X, Absolute,Y and
(Indirect),Y modes" (30_encoding.md R67). -/
def modeChargesCrossing : Mode → Bool
  | .absoluteX | .absoluteY | .indirectY => true
  | _ => false

/-- An instruction is well formed when the opcode map has its operation in its mode. -/
def Instr.wf (i : Instr) : Bool := pairExists i.operation i.mode

/-- A descriptor is well formed when its pair exists and its page-cross flag is the mode's. -/
def Descriptor.wf (d : Descriptor) : Bool :=
  pairExists d.operation d.mode && d.pageCross == modeChargesCrossing d.mode

end Sys2Proof
end

