-- ==== Sys2Proof/Decode.lean ====
section
/-! DEFINITION. The bit-field helpers of spec/00_scope.md R8, the opcode map (30_encoding.md R66), the
decoder, total on any bytes, and the encoder (30_encoding.md R60 to R64, R68). -/

namespace Sys2Proof

/-- `zext16(b) = 0x00:b` (00_scope.md R8). -/
def zext16 (b : Byte) : Addr := 0x00#8 ++ b

/-- `hi:lo = hi * 0x100 + lo` (00_scope.md R8). -/
def join (hi lo : Byte) : Addr := hi ++ lo

/-- `w[7:0]` (00_scope.md R8). -/
def loByte (w : Addr) : Byte := w.extractLsb' 0 8

/-- `w[15:8]`, the page of an address (00_scope.md R8 and its glossary). -/
def hiByte (w : Addr) : Byte := w.extractLsb' 8 8

/-- The LDA rows of the opcode map (30_encoding.md R66; base cycles 40_execute_engine.md R92). -/
def ldaRows : List (Byte × Descriptor) :=
  [(0xA9#8, ⟨.lda, .immediate, 2, false⟩),
   (0xA5#8, ⟨.lda, .zeroPage, 3, false⟩),
   (0xB5#8, ⟨.lda, .zeroPageX, 4, false⟩),
   (0xAD#8, ⟨.lda, .absolute, 4, false⟩),
   (0xBD#8, ⟨.lda, .absoluteX, 4, true⟩),
   (0xB9#8, ⟨.lda, .absoluteY, 4, true⟩),
   (0xA1#8, ⟨.lda, .indirectX, 6, false⟩),
   (0xB1#8, ⟨.lda, .indirectY, 5, true⟩)]

/-- The LDX rows (30_encoding.md R66; 40_execute_engine.md R92). -/
def ldxRows : List (Byte × Descriptor) :=
  [(0xA2#8, ⟨.ldx, .immediate, 2, false⟩),
   (0xA6#8, ⟨.ldx, .zeroPage, 3, false⟩),
   (0xB6#8, ⟨.ldx, .zeroPageY, 4, false⟩),
   (0xAE#8, ⟨.ldx, .absolute, 4, false⟩),
   (0xBE#8, ⟨.ldx, .absoluteY, 4, true⟩)]

/-- The LDY rows (30_encoding.md R66; 40_execute_engine.md R92). -/
def ldyRows : List (Byte × Descriptor) :=
  [(0xA0#8, ⟨.ldy, .immediate, 2, false⟩),
   (0xA4#8, ⟨.ldy, .zeroPage, 3, false⟩),
   (0xB4#8, ⟨.ldy, .zeroPageX, 4, false⟩),
   (0xAC#8, ⟨.ldy, .absolute, 4, false⟩),
   (0xBC#8, ⟨.ldy, .absoluteX, 4, true⟩)]

/-- The JMP, INX and INY rows (30_encoding.md R66; 40_execute_engine.md R92). -/
def otherRows : List (Byte × Descriptor) :=
  [(0x4C#8, ⟨.jmp, .absolute, 3, false⟩),
   (0x6C#8, ⟨.jmp, .indirect, 5, false⟩),
   (0xE8#8, ⟨.inx, .implied, 2, false⟩),
   (0xC8#8, ⟨.iny, .implied, 2, false⟩)]

/-- The opcode map: exactly 22 defined entries (30_encoding.md R66). PRESUMED by the spec itself: 17
of the byte values and every base cycle count (R65, 92_eei_decisions.md D7, D12;
notes/assumptions/3.md and 4.md). -/
def opRows : List (Byte × Descriptor) := ldaRows ++ ldxRows ++ ldyRows ++ otherRows

/-- OPTABLE: the whole opcode byte is looked up; the other 234 bytes have no entry
(30_encoding.md R63, R68; 40_execute_engine.md R84). -/
def opTable (op : Byte) : Option Descriptor := opRows.lookup op

/-- How many operand bytes a mode consumes (30_encoding.md R60). -/
def operandCount : Mode → Nat
  | .implied => 0
  | .immediate | .zeroPage | .zeroPageX | .zeroPageY | .indirectX | .indirectY => 1
  | .absolute | .absoluteX | .absoluteY | .indirect => 2

/-- How many operand bytes follow an opcode byte; none follow an undefined one
(30_encoding.md R64; 60_exceptions.md R163). -/
def operandBytes (op : Byte) : Nat :=
  match opTable op with
  | some d => operandCount d.mode
  | none => 0

/-- The instruction of a pair of the opcode map with its operand bytes in order. A format that has
no second byte, or no operand, ignores the argument (30_encoding.md R61, R62). -/
def build : Operation → Mode → Byte → Byte → Option Instr
  | .lda, .immediate, b, _ => some (.ldaImm b)
  | .lda, .zeroPage, b, _ => some (.ldaZp b)
  | .lda, .zeroPageX, b, _ => some (.ldaZpX b)
  | .lda, .absolute, lo, hi => some (.ldaAbs (join hi lo))
  | .lda, .absoluteX, lo, hi => some (.ldaAbsX (join hi lo))
  | .lda, .absoluteY, lo, hi => some (.ldaAbsY (join hi lo))
  | .lda, .indirectX, b, _ => some (.ldaIndX b)
  | .lda, .indirectY, b, _ => some (.ldaIndY b)
  | .ldx, .immediate, b, _ => some (.ldxImm b)
  | .ldx, .zeroPage, b, _ => some (.ldxZp b)
  | .ldx, .zeroPageY, b, _ => some (.ldxZpY b)
  | .ldx, .absolute, lo, hi => some (.ldxAbs (join hi lo))
  | .ldx, .absoluteY, lo, hi => some (.ldxAbsY (join hi lo))
  | .ldy, .immediate, b, _ => some (.ldyImm b)
  | .ldy, .zeroPage, b, _ => some (.ldyZp b)
  | .ldy, .zeroPageX, b, _ => some (.ldyZpX b)
  | .ldy, .absolute, lo, hi => some (.ldyAbs (join hi lo))
  | .ldy, .absoluteX, lo, hi => some (.ldyAbsX (join hi lo))
  | .jmp, .absolute, lo, hi => some (.jmpAbs (join hi lo))
  | .jmp, .indirect, lo, hi => some (.jmpInd (join hi lo))
  | .inx, .implied, _, _ => some .inx
  | .iny, .implied, _, _ => some .iny
  | _, _, _, _ => none

/-- The instruction of opcode `op` whose descriptor is `d`, its operand bytes taken from the front of
`bytes` (30_encoding.md R60, R61). A descriptor of no pair of the map is rejected like an opcode
that has none; the table holds no such row (`Descriptor.wf`). -/
def decodeOperands (op : Byte) (d : Descriptor) (bytes : List Byte) : Decoded :=
  match operandCount d.mode, bytes with
  | 0, rest =>
    match build d.operation d.mode 0x00#8 0x00#8 with
    | some i => .ok i rest
    | none => .undefinedOpcode op
  | 1, b :: rest =>
    match build d.operation d.mode b 0x00#8 with
    | some i => .ok i rest
    | none => .undefinedOpcode op
  | 2, lo :: hi :: rest =>
    match build d.operation d.mode lo hi with
    | some i => .ok i rest
    | none => .undefinedOpcode op
  | _, _ => .truncated

/-- The decoder (40_execute_engine.md R84): the first byte is looked up whole, and its mode says how
many operand bytes follow. -/
def decode : List Byte → Decoded
  | [] => .truncated
  | op :: bytes =>
    match opTable op with
    | none => .undefinedOpcode op
    | some d => decodeOperands op d bytes

/-- The opcode byte of an instruction (30_encoding.md R66, column opcode). -/
def Instr.opcode : Instr → Byte
  | .ldaImm _ => 0xA9#8
  | .ldaZp _ => 0xA5#8
  | .ldaZpX _ => 0xB5#8
  | .ldaAbs _ => 0xAD#8
  | .ldaAbsX _ => 0xBD#8
  | .ldaAbsY _ => 0xB9#8
  | .ldaIndX _ => 0xA1#8
  | .ldaIndY _ => 0xB1#8
  | .ldxImm _ => 0xA2#8
  | .ldxZp _ => 0xA6#8
  | .ldxZpY _ => 0xB6#8
  | .ldxAbs _ => 0xAE#8
  | .ldxAbsY _ => 0xBE#8
  | .ldyImm _ => 0xA0#8
  | .ldyZp _ => 0xA4#8
  | .ldyZpX _ => 0xB4#8
  | .ldyAbs _ => 0xAC#8
  | .ldyAbsX _ => 0xBC#8
  | .jmpAbs _ => 0x4C#8
  | .jmpInd _ => 0x6C#8
  | .inx => 0xE8#8
  | .iny => 0xC8#8

/-- The operand bytes of an instruction, in the order they are stored (30_encoding.md R61, R62). -/
def Instr.operands : Instr → List Byte
  | .ldaImm b | .ldaZp b | .ldaZpX b | .ldaIndX b | .ldaIndY b => [b]
  | .ldxImm b | .ldxZp b | .ldxZpY b => [b]
  | .ldyImm b | .ldyZp b | .ldyZpX b => [b]
  | .ldaAbs w | .ldaAbsX w | .ldaAbsY w => [loByte w, hiByte w]
  | .ldxAbs w | .ldxAbsY w => [loByte w, hiByte w]
  | .ldyAbs w | .ldyAbsX w => [loByte w, hiByte w]
  | .jmpAbs w | .jmpInd w => [loByte w, hiByte w]
  | .inx | .iny => []

/-- The encoder: the bytes of an instruction, the opcode first (30_encoding.md R61). -/
def encode (i : Instr) : List Byte := i.opcode :: i.operands

/-- The length of an instruction in bytes: its format's (30_encoding.md R60). -/
def Instr.length (i : Instr) : Nat := 1 + operandCount i.mode

/-- The three bytes of a table word: bit 0 is the least significant bit of the first byte, bits at
and above `nbits` are 0, and the longest instruction has 3 bytes (30_encoding.md R60). -/
def wordBytes (nbits w : Nat) : List Byte :=
  [BitVec.ofNat 8 (w % 2 ^ nbits), BitVec.ofNat 8 (w % 2 ^ nbits / 2 ^ 8),
   BitVec.ofNat 8 (w % 2 ^ nbits / 2 ^ 16)]

/-- What the decoder reads from a word numbered as spec/opcode_table.json numbers it. -/
def decodeTableWord (nbits w : Nat) : Option Instr :=
  match decode (wordBytes nbits w) with
  | .ok i _ => some i
  | .undefinedOpcode _ => none
  | .truncated => none

end Sys2Proof
end

