-- ==== Sys2Proof/Machine/State.lean ====
section
/-! DEFINITION. The state of the core and its memory (spec/10_state.md R20, R29, R34; 20_memory.md
R40), what a step gives back (40_execute_engine.md R80), the reasons a step stops, and the plain-data
types of the step's locals (R34) and of the host's actions (40_execute_engine.md R97). -/

namespace Sys2Proof.Machine

/-- The registers an instruction loads or increments (10_state.md R20, R23 to R25). -/
inductive Reg where
  | a | x | y
deriving DecidableEq, Repr

/-- The seven status flags: independent booleans, never packed in a byte (10_state.md R29, R33). -/
structure Flags where
  /-- Carry -/
  c : Bool
  /-- Zero -/
  z : Bool
  /-- InterruptDisable -/
  i : Bool
  /-- DecimalMode -/
  d : Bool
  /-- Break -/
  b : Bool
  /-- Overflow -/
  v : Bool
  /-- Negative -/
  n : Bool
deriving DecidableEq, Repr

/-- Memory as the cells that do not read as `Config.unwrittenByte`; `Memory.wf` (Ops.lean) is its
canonical form. It covers the whole 64 KiB space (20_memory.md R40, R41; notes/assumptions/15.md). -/
abbrev Memory := List Host.Cell

/-- One bus read: the address and the byte it gave (20_memory.md R56). -/
abbrev BusRead := Addr × Byte

/-- Everything the spec gives the machine (10_state.md R20, R29, R34; 20_memory.md R40), and the two
things a step gives back. The spec's state may hold any value in any field: no register is hardwired
and none is part of another (10_state.md R21). -/
structure State where
  /-- "points at the next byte to fetch" (10_state.md R27). -/
  pc : Addr
  /-- Part of the state, used by no instruction (10_state.md R26). -/
  sp : Byte
  a : Byte
  x : Byte
  y : Byte
  flags : Flags
  mem : Memory
  /-- The bus reads of the last step, oldest first (20_memory.md R56). DESIGN CHOICE, safe: the place
  is the model's own (notes/assumptions/2.md; after a faulting step, 21.md). -/
  reads : List BusRead
  /-- The cycle count the last step returned (40_execute_engine.md R90); none when no step was taken since
  reset, or the last one faulted. DESIGN CHOICE, safe: the place is the model's own
  (notes/assumptions/1.md; after a faulting step, 21.md). -/
  report : Option Nat
deriving DecidableEq, Repr

/-- The one exception of the core (60_exceptions.md R160, R164). -/
inductive Fault where
  /-- Raised by `raiseDecodeFault` in `step`, when the byte fetched at PC is no opcode of the map.
  `opcode` is that byte, `pc` its address. The state stays as it was before the step (R161). Safe: the
  spec names this fault and ends the run with it (R162; notes/assumptions/8.md). -/
  | decodeFault (opcode : Byte) (pc : Addr)
deriving DecidableEq, Repr

/-- The model refuses nothing that the opcode table has. -/
inductive Refusal where
  /-- Raised by an arm of `exec` for an instruction that has no meaning yet; no arm does. Safe. -/
  | notModelled (mnemonic : String)
deriving DecidableEq, Repr

/-- What a meaning and a step answer. -/
abbrev Result := Host.Outcome State Fault Refusal

/-- All flags false (10_state.md R35). -/
def Flags.clear : Flags :=
  { c := false, z := false, i := false, d := false, b := false, v := false, n := false }

/-- Power-on: every register and flag zero, every byte of memory zero (10_state.md R35). -/
def State.powerOn : State where
  pc := 0x0000#16
  sp := 0x00#8
  a := 0x00#8
  x := 0x00#8
  y := 0x00#8
  flags := Flags.clear
  mem := []
  reads := []
  report := none

/-- The machine right after reset, reset following power-on (10_state.md R35, column "after reset";
70_reset_and_hazards.md R180). `resetCore` (Ops.lean) is the operation; `Obligations.ResetFollowsPowerOn`
states that the two agree. -/
def State.reset : State where
  pc := Config.resetPc
  sp := Config.resetSp
  a := 0x00#8
  x := 0x00#8
  y := 0x00#8
  flags := Flags.clear
  mem := []
  reads := []
  report := none

/-- What a resolver yields (41_addressing_modes.md R100, R101): the effective address, the
page-crossed bit, and the state after the reads it made. -/
structure Resolution where
  ea : Addr
  crossed : Bool
  state : State
deriving DecidableEq, Repr

/-- What ReadOperand yields (41_addressing_modes.md R113): the byte, the step's page-crossed bit, and
the state after the reads. -/
structure Operand where
  value : Byte
  crossed : Bool
  state : State
deriving DecidableEq, Repr

/-- What fetching an instruction yields (40_execute_engine.md R82, R83). -/
inductive Fetched where
  /-- The instruction, and the state with PC past its last byte. -/
  | instr (i : Instr) (s : State)
  /-- The opcode byte is in no row of the map. -/
  | undefined (op : Byte)
deriving DecidableEq, Repr

/-- The locals of the engine of 40_execute_engine.md R82: the state, the page-crossed bit, and the
running sum of the micro-step costs of R91. -/
structure Micro where
  state : State
  crossed : Bool
  cost : Nat
deriving DecidableEq, Repr

/-- What `step` returns to the host: `Ok(cycles)` or `Err(DecodeFault)` (40_execute_engine.md R80). -/
inductive StepResult where
  | ok (cycles : Nat)
  | err (f : Fault)
deriving DecidableEq, Repr

/-- The end of one run of the engine: what the host gets, the state after it, and the sum of the
micro-step costs charged on the way (40_execute_engine.md R80, R91). -/
structure StepEnd where
  state : State
  result : StepResult
  cost : Nat
deriving DecidableEq, Repr

/-- What the host can do to the machine, each between steps (40_execute_engine.md R97). -/
inductive HostAction where
  | powerOn
  | reset
  | write (addr : Addr) (value : Byte)
  | step
deriving DecidableEq, Repr

end Sys2Proof.Machine
end

