-- ==== Sys2Proof/Machine/Ops.lean ====
section
/-! DEFINITION. The named operations over memory, registers and the instruction stream
(spec/20_memory.md R41, R42; 40_execute_engine.md R83; 10_state.md R20), raising the decode fault
(60_exceptions.md R160, R161) and the reset operation (70_reset_and_hazards.md R180). -/

namespace Sys2Proof.Machine

/-! ### Memory -/

/-- The byte at a key: the listed one, else what an unwritten byte reads as (20_memory.md R41). -/
def Memory.cellAt : Memory → Nat → Byte
  | [], _ => Config.unwrittenByte
  | (k, v) :: rest, key => if k = key then v else Memory.cellAt rest key

/-- `read(address)`: pure, never fails (20_memory.md R41, R43, R48). -/
def Memory.read (m : Memory) (addr : Addr) : Byte := m.cellAt addr.toNat

/-- `m` with `key` first holding `v`, in canonical form: an unwritten value is not listed. -/
def Memory.consCell (key : Nat) (v : Byte) (m : Memory) : Memory :=
  if v = Config.unwrittenByte then m else (key, v) :: m

/-- `m` with `key` holding `v`, the keys kept rising. -/
def Memory.put : Memory → Nat → Byte → Memory
  | [], key, v => Memory.consCell key v []
  | (k, w) :: rest, key, v =>
    if key < k then Memory.consCell key v ((k, w) :: rest)
    else if k = key then Memory.consCell key v rest
    else (k, w) :: Memory.put rest key v

/-- `write(address, byte)`: one byte, nothing else (20_memory.md R42). -/
def Memory.write (m : Memory) (addr : Addr) (v : Byte) : Memory := m.put addr.toNat v

/-- Keys rising from `lo` on and inside the address space, and no cell that reads as unwritten. -/
def Memory.wfFrom : Nat → Memory → Bool
  | _, [] => true
  | lo, (k, v) :: rest =>
    decide (lo ≤ k) && decide (k < Config.memorySize) && decide (v ≠ Config.unwrittenByte)
      && Memory.wfFrom (k + 1) rest

/-- The canonical form of memory: equal memories are equal lists (notes/assumptions/15.md). -/
def Memory.wf (m : Memory) : Bool := Memory.wfFrom 0 m

/-! ### Registers -/

/-- The value of a register (10_state.md R20). -/
def readReg : Reg → State → Byte
  | .a, s => s.a
  | .x, s => s.x
  | .y, s => s.y

/-- `A <- v`, `X <- v`, `Y <- v` (00_scope.md R9): no register is hardwired, none aliases another
(10_state.md R21). -/
def writeReg : Reg → Byte → State → State
  | .a, v, s => { s with a := v }
  | .x, v, s => { s with x := v }
  | .y, v, s => { s with y := v }

/-- `PC <- target` (00_scope.md R9). -/
def writePc (target : Addr) (s : State) : State := { s with pc := target }

/-! ### The bus and the instruction stream -/

/-- `MemRead(addr, 1)` by the core: the byte, and the read recorded (20_memory.md R41, R56). -/
def busRead (addr : Addr) (s : State) : Byte × State :=
  (s.mem.read addr, { s with reads := s.reads ++ [(addr, s.mem.read addr)] })

/-- `Fetch8`: read the byte at PC, then `PC <- (PC + 1) mod 2^16` (40_execute_engine.md R83). -/
def fetch8 (s : State) : Byte × State :=
  let r := busRead s.pc s
  (r.1, writePc (s.pc + 1#16) r.2)

/-- `n` fetches one after the other, in increasing address order (20_memory.md R45). -/
def fetchBytes : Nat → State → List Byte × State
  | 0, s => ([], s)
  | n + 1, s =>
    let r := fetch8 s
    let rest := fetchBytes n r.2
    (r.1 :: rest.1, rest.2)

/-- Fetch the opcode, then the operand bytes its mode consumes, and decode them
(40_execute_engine.md R82 to R84). No operand byte of an undefined opcode is fetched
(60_exceptions.md R163). -/
def fetchInstr (s : State) : Fetched :=
  let r := fetch8 s
  let q := fetchBytes (operandBytes r.1) r.2
  match decode (r.1 :: q.1) with
  | .ok i _ => .instr i q.2
  | .undefinedOpcode op => .undefined op
  | .truncated => .undefined r.1

/-- A step begins: the last step's count and reads are no longer the last step's. -/
def beginStep (s : State) : State := { s with reads := [], report := none }

/-! ### The exception -/

/-- `raise DecodeFault(opcode, pc)` (60_exceptions.md R160). The core has no trap entry (R167): the
fault is the step's outcome and ends the run (R162). No state goes with it, because the state is the
one before the step, the opcode fetch's increment of PC undone (R161; 90_conflicts.md C4). There is
no return from it: RTI is undefined here (R168). -/
def raiseDecodeFault (opcode : Byte) (pc : Addr) : Result := .fault (.decodeFault opcode pc)

/-- The state after a step that raised DecodeFault: the opcode fetch was made and its increment of PC
undone, so the architectural state is the one before the step (60_exceptions.md R161). DESIGN CHOICE,
safe: the two fields of record describe that step, its one read and no count, and not the step before it
(notes/assumptions/21.md). -/
def afterFault (s : State) : State := writePc s.pc (fetch8 (beginStep s)).2

/-- The cause code of a fault (60_exceptions.md R160; 92_eei_decisions.md D5). -/
def causeCode : Fault → Nat
  | .decodeFault _ _ => 0

/-! ### Reset and placing a program -/

/-- The reset operation: PC, SP and the seven flags; A, X, Y and memory unchanged; no memory read, no
cycle count (70_reset_and_hazards.md R180; notes/assumptions/6.md). -/
def resetCore (s : State) : State :=
  { s with pc := Config.resetPc, sp := Config.resetSp, flags := Flags.clear, reads := [], report := none }

/-- Bytes written one after the other from an address on, the address wrapping modulo 2^16
(20_memory.md R42, R45). -/
def placeBytes : List Byte → Addr → Memory → Memory
  | [], _, m => m
  | b :: rest, addr, m => placeBytes rest (addr + 1#16) (m.write addr b)

end Sys2Proof.Machine
end

