-- ==== Sys2Proof/Machine/Cycles.lean ====
section
/-! DEFINITION. The cycle accountant (spec/40_execute_engine.md R90 to R93, R95). -/

namespace Sys2Proof.Machine

/-- The default CYCLE_BASE (40_execute_engine.md R92): the base cost of the opcode's descriptor. PRESUMED
by the spec itself, unsafe for claims about cycle counts: the numbers are the NMOS 6502's, from
general knowledge (notes/assumptions/3.md). An undefined opcode has no entry and no step that
completes (R95). -/
def cycleBase (op : Byte) : Nat :=
  match opTable op with
  | some d => d.baseCycles
  | none => 0

/-- The descriptor's page-cross flag (30_encoding.md R67). -/
def chargesCrossing (op : Byte) : Bool :=
  match opTable op with
  | some d => d.pageCross
  | none => false

/-- `cycles = CYCLE_BASE[op] + (if desc.pageCross and crossed then 1 else 0)`, for any CYCLE_BASE
(40_execute_engine.md R90, R93). -/
def cyclesOf (base : Byte → Nat) (op : Byte) (crossed : Bool) : Nat :=
  base op + if chargesCrossing op && crossed then Config.pageCrossPenalty else 0

/-- The end of a successful step: its cycle count is returned (40_execute_engine.md R82, R90). -/
def retire (op : Byte) (crossed : Bool) (s : State) : State :=
  { s with report := some (cyclesOf cycleBase op crossed) }

end Sys2Proof.Machine
end

