-- ==== Sys2Proof/Machine/Flags.lean ====
section
/-! DEFINITION. The flag update logic: its one operation, SetZN (spec/10_state.md R30). -/

namespace Sys2Proof.Machine

/-- `SetZN(v)`: `Z <- (v == 0x00)`, `N <- (v[7] == 1)`, no other flag (10_state.md R30). -/
def setZN (v : Byte) (s : State) : State :=
  { s with flags := { s.flags with z := v == 0x00#8, n := v.getLsbD 7 } }

end Sys2Proof.Machine
end

