-- ==== Sys2Proof/Machine/Increments.lean ====
section
/-! DEFINITION. The increment instructions (spec/44_increments.md R150 to R152). -/

namespace Sys2Proof.Machine

/-- The register plus one modulo 2^8, then SetZN of the new value (44_increments.md R150, R151). The wrap
from 0xFF to 0x00 sets no carry. -/
def increment (r : Reg) (op : Byte) (s : State) : Result :=
  let v := readReg r s + 1#8
  .next (retire op false (setZN v (writeReg r v s)))

/-- INX (44_increments.md R150). -/
def execInx (s : State) : Result := increment .x Instr.inx.opcode s

/-- INY (44_increments.md R151). -/
def execIny (s : State) : Result := increment .y Instr.iny.opcode s

end Sys2Proof.Machine
end

