-- ==== Sys2Proof/Machine/Operands.lean ====
section
/-! DEFINITION. The addressing-mode resolvers (spec/41_addressing_modes.md R100 to R114). The operand
bytes are the instruction's fields, already fetched by `fetchInstr`, which made the fetches first, as
every resolver's rule does (notes/assumptions/13.md). An index register changes only the address,
never the value read (R114). -/

namespace Sys2Proof.Machine

/-- ZeroPage (41_addressing_modes.md R103). -/
def resolveZp (b : Byte) (s : State) : Resolution := ⟨zext16 b, false, s⟩

/-- ZeroPage indexed: the sum wraps in page 0 and never crosses (41_addressing_modes.md R104, R105). -/
def resolveZpIndexed (b : Byte) (index : Reg) (s : State) : Resolution :=
  ⟨zext16 (b + readReg index s), false, s⟩

/-- Absolute (41_addressing_modes.md R106). -/
def resolveAbs (w : Addr) (s : State) : Resolution := ⟨w, false, s⟩

/-- The indexed addition onto a 16-bit base: the sum modulo 2^16 (41_addressing_modes.md R101). -/
def indexedAddr (base : Addr) (index : Byte) : Addr := base + zext16 index

/-- A page crossing: the addition changed the high byte (41_addressing_modes.md R101). -/
def pageCrossed (base : Addr) (index : Byte) : Bool := hiByte (indexedAddr base index) != hiByte base

/-- Absolute indexed (41_addressing_modes.md R107, R108). -/
def resolveAbsIndexed (base : Addr) (index : Reg) (s : State) : Resolution :=
  ⟨indexedAddr base (readReg index s), pageCrossed base (readReg index s), s⟩

/-- ReadPtrZP: low byte at `0x00:p`, then high byte at `0x00:(p + 1 mod 2^8)` (41_addressing_modes.md
R111; 92_eei_decisions.md D9; notes/assumptions/7.md). -/
def readPtrZp (p : Byte) (s : State) : Addr × State :=
  let lo := busRead (zext16 p) s
  let hi := busRead (zext16 (p + 1#8)) lo.2
  (join hi.1 lo.1, hi.2)

/-- (Indirect,X): the pointer is at `b + X`, wrapped in page 0 (41_addressing_modes.md R109). -/
def resolveIndX (b : Byte) (s : State) : Resolution :=
  let ptr := readPtrZp (b + readReg .x s) s
  ⟨ptr.1, false, ptr.2⟩

/-- (Indirect),Y: Y is added to the pointer at `b` (41_addressing_modes.md R110). -/
def resolveIndY (b : Byte) (s : State) : Resolution :=
  let ptr := readPtrZp b s
  ⟨indexedAddr ptr.1 (readReg .y s), pageCrossed ptr.1 (readReg .y s), ptr.2⟩

/-- Immediate: the operand byte itself, no address and no data read (41_addressing_modes.md R102). -/
def immediate (v : Byte) (s : State) : Operand := ⟨v, false, s⟩

/-- The one data read of every other mode, at the effective address (41_addressing_modes.md R113). -/
def readAt (r : Resolution) : Operand :=
  let d := busRead r.ea r.state
  ⟨d.1, r.crossed, d.2⟩

/-- JMP indirect's target: low byte at the pointer, high byte at the pointer plus 1 wrapped within the
pointer's page (43_jumps.md R141). -/
def readJumpTarget (ptr : Addr) (s : State) : Addr × State :=
  let lo := busRead ptr s
  let hi := busRead (join (hiByte ptr) (loByte ptr + 1#8)) lo.2
  (join hi.1 lo.1, hi.2)

end Sys2Proof.Machine
end

