-- ==== Sys2Proof/Machine/Jumps.lean ====
section
/-! DEFINITION. The jump instructions (spec/43_jumps.md R140 to R142). -/

namespace Sys2Proof.Machine

/-- JMP Absolute: the operand is the target (43_jumps.md R140). -/
def execJmpAbs (target : Addr) (s : State) : Result :=
  .next (retire (Instr.jmpAbs target).opcode false (writePc target s))

/-- JMP Indirect: the operand is the pointer, and the target is read through it
(43_jumps.md R141; 90_conflicts.md C6; notes/assumptions/11.md). -/
def execJmpInd (ptr : Addr) (s : State) : Result :=
  let target := readJumpTarget ptr s
  .next (retire (Instr.jmpInd ptr).opcode false (writePc target.1 target.2))

end Sys2Proof.Machine
end

