-- ==== Sys2Proof/Machine/Loads.lean ====
section
/-! DEFINITION. The load instructions (spec/42_loads.md R120 to R138). A meaning runs after the
instruction's bytes are fetched: `s.pc` is the address of the byte after the instruction
(10_state.md R27). -/

namespace Sys2Proof.Machine

/-- What every load does with the byte its mode gave: into the register unmodified, then SetZN of it,
then the cycle count (42_loads.md R138). -/
def load (dest : Reg) (op : Byte) (v : Operand) : Result :=
  .next (retire op v.crossed (setZN v.value (writeReg dest v.value v.state)))

/-- LDA Immediate (42_loads.md R120). -/
def execLdaImm (v : Byte) (s : State) : Result :=
  load .a (Instr.ldaImm v).opcode (immediate v s)

/-- LDA ZeroPage (42_loads.md R121). -/
def execLdaZp (b : Byte) (s : State) : Result :=
  load .a (Instr.ldaZp b).opcode (readAt (resolveZp b s))

/-- LDA ZeroPage,X (42_loads.md R122). -/
def execLdaZpX (b : Byte) (s : State) : Result :=
  load .a (Instr.ldaZpX b).opcode (readAt (resolveZpIndexed b .x s))

/-- LDA Absolute (42_loads.md R123). -/
def execLdaAbs (w : Addr) (s : State) : Result :=
  load .a (Instr.ldaAbs w).opcode (readAt (resolveAbs w s))

/-- LDA Absolute,X (42_loads.md R124). -/
def execLdaAbsX (w : Addr) (s : State) : Result :=
  load .a (Instr.ldaAbsX w).opcode (readAt (resolveAbsIndexed w .x s))

/-- LDA Absolute,Y (42_loads.md R125). -/
def execLdaAbsY (w : Addr) (s : State) : Result :=
  load .a (Instr.ldaAbsY w).opcode (readAt (resolveAbsIndexed w .y s))

/-- LDA (Indirect,X) (42_loads.md R126). -/
def execLdaIndX (b : Byte) (s : State) : Result :=
  load .a (Instr.ldaIndX b).opcode (readAt (resolveIndX b s))

/-- LDA (Indirect),Y (42_loads.md R127). -/
def execLdaIndY (b : Byte) (s : State) : Result :=
  load .a (Instr.ldaIndY b).opcode (readAt (resolveIndY b s))

/-- LDX Immediate (42_loads.md R128). -/
def execLdxImm (v : Byte) (s : State) : Result :=
  load .x (Instr.ldxImm v).opcode (immediate v s)

/-- LDX ZeroPage (42_loads.md R129). -/
def execLdxZp (b : Byte) (s : State) : Result :=
  load .x (Instr.ldxZp b).opcode (readAt (resolveZp b s))

/-- LDX ZeroPage,Y (42_loads.md R130). -/
def execLdxZpY (b : Byte) (s : State) : Result :=
  load .x (Instr.ldxZpY b).opcode (readAt (resolveZpIndexed b .y s))

/-- LDX Absolute (42_loads.md R131). -/
def execLdxAbs (w : Addr) (s : State) : Result :=
  load .x (Instr.ldxAbs w).opcode (readAt (resolveAbs w s))

/-- LDX Absolute,Y (42_loads.md R132). -/
def execLdxAbsY (w : Addr) (s : State) : Result :=
  load .x (Instr.ldxAbsY w).opcode (readAt (resolveAbsIndexed w .y s))

/-- LDY Immediate (42_loads.md R133). -/
def execLdyImm (v : Byte) (s : State) : Result :=
  load .y (Instr.ldyImm v).opcode (immediate v s)

/-- LDY ZeroPage (42_loads.md R134). -/
def execLdyZp (b : Byte) (s : State) : Result :=
  load .y (Instr.ldyZp b).opcode (readAt (resolveZp b s))

/-- LDY ZeroPage,X (42_loads.md R135). -/
def execLdyZpX (b : Byte) (s : State) : Result :=
  load .y (Instr.ldyZpX b).opcode (readAt (resolveZpIndexed b .x s))

/-- LDY Absolute (42_loads.md R136). -/
def execLdyAbs (w : Addr) (s : State) : Result :=
  load .y (Instr.ldyAbs w).opcode (readAt (resolveAbs w s))

/-- LDY Absolute,X (42_loads.md R137). -/
def execLdyAbsX (w : Addr) (s : State) : Result :=
  load .y (Instr.ldyAbsX w).opcode (readAt (resolveAbsIndexed w .x s))

end Sys2Proof.Machine
end

