-- ==== Sys2Proof/Machine/Step.lean ====
section
/-! DEFINITION. One step of the core (spec/40_execute_engine.md R81, R82), and placing one instruction
where the next step fetches. -/

namespace Sys2Proof.Machine

/-- One whole instruction, or one decode fault (40_execute_engine.md R81). -/
def step (s : State) : Host.Outcome State Fault Refusal :=
  match fetchInstr (beginStep s) with
  | .instr i t => exec i t
  | .undefined op => raiseDecodeFault op s.pc

/-- `s` with the bytes of a table word where the next step fetches them: the host's program load, one
instruction of it (20_memory.md R42; 70_reset_and_hazards.md R181; notes/assumptions/14.md). -/
def State.withFetchWord (s : State) (nbits w : Nat) : State :=
  { s with mem := placeBytes (wordBytes nbits w) s.pc s.mem }

end Sys2Proof.Machine
end

