-- ==== Sys2Proof/Machine/Engine.lean ====
section
/-! DEFINITION. The engine written the way spec/40_execute_engine.md R82 writes it: the opcode is looked
up, the handler of the descriptor's operation runs the resolver of its mode, the resolver fetches its
own operand bytes, and each micro-step is charged (R91). CYCLE_BASE is an argument (R92). `step` is the
decoded form of it: `Obligations.StepIsTheMicroStepEngine` states that the two agree. -/

namespace Sys2Proof.Machine

/-- Charge `n` cycles: `cycles <- cycles + n` (00_scope.md R9, 40_execute_engine.md R91). -/
def microCharge (n : Nat) (m : Micro) : Micro := { m with cost := m.cost + n }

/-- A data or pointer read costs 1 (40_execute_engine.md R91). -/
def microRead (addr : Addr) (m : Micro) : Byte × Micro :=
  let r := busRead addr m.state
  (r.1, microCharge 1 { m with state := r.2 })

/-- `Fetch8`: an opcode or operand fetch costs 1 (40_execute_engine.md R83, R91). -/
def microFetch8 (m : Micro) : Byte × Micro :=
  let r := fetch8 m.state
  (r.1, microCharge 1 { m with state := r.2 })

/-- `Fetch16`: low byte first (40_execute_engine.md R83). -/
def microFetch16 (m : Micro) : Addr × Micro :=
  let lo := microFetch8 m
  let hi := microFetch8 lo.2
  (join hi.1 lo.1, hi.2)

/-- The index addition in page 0 costs 1 (41_addressing_modes.md R104, R105, R109). -/
def microZpIndex (b : Byte) (index : Reg) (m : Micro) : Byte × Micro :=
  (b + readReg index m.state, microCharge 1 m)

/-- The index addition onto a 16-bit base sets `crossed`, and a crossing costs 1
(41_addressing_modes.md R101; 40_execute_engine.md R91). -/
def microIndex (base : Addr) (index : Reg) (m : Micro) : Addr × Micro :=
  let i := readReg index m.state
  let crossed := pageCrossed base i
  (indexedAddr base i,
    microCharge (if crossed then Config.pageCrossPenalty else 0) { m with crossed := crossed })

/-- `ReadPtrZP` (41_addressing_modes.md R111). -/
def microPtrZp (p : Byte) (m : Micro) : Addr × Micro :=
  let lo := microRead (zext16 p) m
  let hi := microRead (zext16 (p + 1#8)) lo.2
  (join hi.1 lo.1, hi.2)

/-- The resolvers that yield an effective address (41_addressing_modes.md R103 to R110). Immediate and
Implied yield none (R102, R112), and JMP indirect reads through its operand itself (43_jumps.md R141). -/
def microResolve : Mode → Micro → Option (Addr × Micro)
  | .implied, _ => none
  | .immediate, _ => none
  | .zeroPage, m =>
    let b := microFetch8 m
    some (zext16 b.1, b.2)
  | .zeroPageX, m =>
    let b := microFetch8 m
    let l := microZpIndex b.1 .x b.2
    some (zext16 l.1, l.2)
  | .zeroPageY, m =>
    let b := microFetch8 m
    let l := microZpIndex b.1 .y b.2
    some (zext16 l.1, l.2)
  | .absolute, m => some (microFetch16 m)
  | .absoluteX, m =>
    let base := microFetch16 m
    some (microIndex base.1 .x base.2)
  | .absoluteY, m =>
    let base := microFetch16 m
    some (microIndex base.1 .y base.2)
  | .indirectX, m =>
    let b := microFetch8 m
    let p := microZpIndex b.1 .x b.2
    some (microPtrZp p.1 p.2)
  | .indirectY, m =>
    let b := microFetch8 m
    let base := microPtrZp b.1 b.2
    some (microIndex base.1 .y base.2)
  | .indirect, _ => none

/-- `ReadOperand(mode)` (41_addressing_modes.md R113). -/
def microOperand : Mode → Micro → Option (Byte × Micro)
  | .immediate, m => some (microFetch8 m)
  | mode, m =>
    match microResolve mode m with
    | some r => some (microRead r.1 r.2)
    | none => none

/-- A load of `dest` (42_loads.md R138). -/
def microLoad (dest : Reg) (mode : Mode) (m : Micro) : Option Micro :=
  match microOperand mode m with
  | some v => some { v.2 with state := setZN v.1 (writeReg dest v.1 v.2.state) }
  | none => none

/-- JMP: absolute takes the operand as the target, indirect reads the target through it
(43_jumps.md R140, R141). -/
def microJump : Mode → Micro → Option Micro
  | .absolute, m =>
    let target := microFetch16 m
    some { target.2 with state := writePc target.1 target.2.state }
  | .indirect, m =>
    let ptr := microFetch16 m
    let lo := microRead ptr.1 ptr.2
    let hi := microRead (join (hiByte ptr.1) (loByte ptr.1 + 1#8)) lo.2
    some { hi.2 with state := writePc (join hi.1 lo.1) hi.2.state }
  | _, _ => none

/-- INX and INY; the register increment costs 1 (44_increments.md R150, R151; 40_execute_engine.md R91). -/
def microIncrement (r : Reg) : Mode → Micro → Option Micro
  | .implied, m =>
    let v := readReg r m.state + 1#8
    some (microCharge 1 { m with state := setZN v (writeReg r v m.state) })
  | _, _ => none

/-- The handler bound to an operation (40_execute_engine.md R84, R85). -/
def microHandler : Operation → Mode → Micro → Option Micro
  | .lda, mode, m => microLoad .a mode m
  | .ldx, mode, m => microLoad .x mode m
  | .ldy, mode, m => microLoad .y mode m
  | .jmp, mode, m => microJump mode m
  | .inx, mode, m => microIncrement .x mode m
  | .iny, mode, m => microIncrement .y mode m

/-- The end of a step that raises DecodeFault: the opcode fetch's PC increment is undone
(40_execute_engine.md R82; 60_exceptions.md R161). DESIGN CHOICE, safe: `reads` then holds the faulting
step's opcode fetch and `report` no count (notes/assumptions/21.md). -/
def microFault (op : Byte) (start : Addr) (m : Micro) : StepEnd :=
  ⟨writePc start m.state, .err (.decodeFault op start), m.cost⟩

/-- The end of a step that completes: `Ok(cycles)` (40_execute_engine.md R82, R90). -/
def microRetire (base : Byte → Nat) (op : Byte) (m : Micro) : StepEnd :=
  ⟨{ m.state with report := some (cyclesOf base op m.crossed) }, .ok (cyclesOf base op m.crossed), m.cost⟩

/-- `Step()` of 40_execute_engine.md R82, with CYCLE_BASE the argument `base`. -/
def engineStep (base : Byte → Nat) (s : State) : StepEnd :=
  let r := microFetch8 ⟨beginStep s, false, 0⟩
  match opTable r.1 with
  | none => microFault r.1 s.pc r.2
  | some d =>
    match microHandler d.operation d.mode r.2 with
    | none => microFault r.1 s.pc r.2
    | some m => microRetire base r.1 m

/-- A run of the engine as an outcome: `Ok` is a next state, `Err` is the fault. -/
def outcomeOf (e : StepEnd) : Result :=
  match e.result with
  | .ok _ => .next e.state
  | .err f => .fault f

end Sys2Proof.Machine
end

