-- ==== Sys2Proof/Machine/HostOps.lean ====
section
/-! DEFINITION. What the host does to the machine between steps (spec/40_execute_engine.md R80, R94, R95,
R97; 20_memory.md R42; 70_reset_and_hazards.md R181). -/

namespace Sys2Proof.Machine

/-- The host's `MemWrite(addr, 1, v)` (20_memory.md R42). -/
def hostWrite (addr : Addr) (v : Byte) (s : State) : State := { s with mem := s.mem.write addr v }

/-- The state after a call of `step`: the next state, or `afterFault` when the step raised its fault
(60_exceptions.md R161), which differs from the state before it at most in `reads` and `report`. DESIGN
CHOICE, safe: those two fields hold the faulting step's one read and no count, as after `engineStep`
(notes/assumptions/21.md). -/
def afterStep (s : State) : State :=
  match step s with
  | .next t => t
  | .fault _ => afterFault s
  | .refused _ => s

/-- One action of the host (40_execute_engine.md R97). The host writes no register (10_state.md R22). -/
def hostAct : HostAction → State → State
  | .powerOn, _ => State.powerOn
  | .reset, s => resetCore s
  | .write addr v, s => hostWrite addr v s
  | .step, s => afterStep s

/-- The host's actions one after the other (00_scope.md R6: it acts only between steps). -/
def runActions : List HostAction → State → State
  | [], s => s
  | act :: rest, s => runActions rest (hostAct act s)

/-- The host's remaining-cycle budget after a step: debited by the count the step returned, possibly
below zero, and not debited by a fault (40_execute_engine.md R94, R95; 92_eei_decisions.md D8, D18). -/
def hostBudget (remaining : Int) : Result → Int
  | .next t => remaining - Int.ofNat (t.report.getD 0)
  | .fault _ => remaining
  | .refused _ => remaining

end Sys2Proof.Machine
end

