-- ==== Sys2Proof/Safety.lean ====
section
/-! DEFINITION. The terms of the claims: the part of a state that is architectural, the invariant of the
machine, a run that meets no fault, and the spec's own formulas for where a load reads and when it
crosses a page, in plain numbers and apart from the machine's operations. -/

namespace Sys2Proof.Machine

/-- The spec's own state: registers, flags and memory, without what the last step gave back
(10_state.md R34). -/
def State.architectural (s : State) : State := { s with reads := [], report := none }

/-- C, I, D, B and V are false (10_state.md R32). -/
def State.unusedFlagsClear (s : State) : Prop :=
  s.flags.c = false ∧ s.flags.i = false ∧ s.flags.d = false ∧ s.flags.b = false ∧ s.flags.v = false

/-- Every recorded read gave the byte memory holds (20_memory.md R51: reads see memory as it was when the
step began, and the core writes nothing). -/
def State.readsAgree (s : State) : Prop := ∀ e ∈ s.reads, s.mem.read e.1 = e.2

/-- A returned cycle count is 2 to 6 (90_conflicts.md C8; 40_execute_engine.md R92). -/
def State.reportInRange (s : State) : Prop := ∀ n, s.report = some n → 2 ≤ n ∧ n ≤ 6

/-- What the host's reset establishes and every step keeps: memory is in canonical form, the five flags
no instruction writes are clear, SP is where reset put it, a step made at most five bus reads, each of
the byte memory holds, and its cycle count is in range. -/
structure State.Inv (s : State) : Prop where
  mem_wf : s.mem.wf = true
  unused_flags : s.unusedFlagsClear
  sp_reset : s.sp = Config.resetSp
  reads_few : s.reads.length ≤ 5
  reads_agree : s.readsAgree
  report_range : s.reportInRange

/-- What power-on establishes and every action of the host keeps, whether or not a step faults: the five
flags no instruction writes are clear, SP is as power-on or reset left it, and memory is in canonical
form (10_state.md R26, R32; notes/assumptions/15.md). -/
structure State.RunInv (s : State) : Prop where
  unused_flags : s.unusedFlagsClear
  sp_initial : s.sp = 0x00#8 ∨ s.sp = Config.resetSp
  mem_wf : s.mem.wf = true

/-- `n` steps from `s` meet no fault: every opcode byte fetched on the way is one of the 22
(40_execute_engine.md R98; 60_exceptions.md R162). -/
def SafeRun (n : Nat) (s : State) : Prop := ∃ t, Host.Core.run Sys2Proof.core n s = .next t

/-! ### The spec's address formulas, in numbers -/

/-- The byte memory holds at the number `n`. -/
def State.byteAt (s : State) (n : Nat) : Byte := s.mem.read (BitVec.ofNat 16 n)

/-- The 16-bit pointer of page 0 at `p`: low byte at `p`, high byte at `(p + 1) mod 2^8`
(41_addressing_modes.md R111). -/
def State.zpPointer (s : State) (p : Nat) : Nat :=
  256 * (s.byteAt ((p + 1) % 256)).toNat + (s.byteAt p).toNat

/-- The pointer an (Indirect),Y load adds Y to, or the base an absolute indexed load adds its index to,
and that index (41_addressing_modes.md R107, R108, R110). No other mode adds an index to a 16-bit base. -/
def indexedBase : Instr → State → Option (Nat × Byte)
  | .ldaAbsX w, s | .ldyAbsX w, s => some (w.toNat, s.x)
  | .ldaAbsY w, s | .ldxAbsY w, s => some (w.toNat, s.y)
  | .ldaIndY b, s => some (s.zpPointer b.toNat, s.y)
  | _, _ => none

/-- The step crosses a page: the index addition changed the high byte (41_addressing_modes.md R101). -/
def crossesPage (i : Instr) (s : State) : Bool :=
  match indexedBase i s with
  | some (base, index) => decide ((base + index.toNat) % 65536 / 256 ≠ base / 256)
  | none => false

/-- The effective address of a load (41_addressing_modes.md R103 to R110). -/
def effectiveAddress : Instr → State → Option Nat
  | .ldaZp b, _ | .ldxZp b, _ | .ldyZp b, _ => some b.toNat
  | .ldaZpX b, s | .ldyZpX b, s => some ((b.toNat + s.x.toNat) % 256)
  | .ldxZpY b, s => some ((b.toNat + s.y.toNat) % 256)
  | .ldaAbs w, _ | .ldxAbs w, _ | .ldyAbs w, _ => some w.toNat
  | .ldaAbsX w, s | .ldyAbsX w, s => some ((w.toNat + s.x.toNat) % 65536)
  | .ldaAbsY w, s | .ldxAbsY w, s => some ((w.toNat + s.y.toNat) % 65536)
  | .ldaIndX b, s => some (s.zpPointer ((b.toNat + s.x.toNat) % 256))
  | .ldaIndY b, s => some ((s.zpPointer b.toNat + s.y.toNat) % 65536)
  | _, _ => none

/-- The addresses of the data and pointer reads of an instruction, in order: a pointer's low byte, its high
byte, and then the effective address (41_addressing_modes.md R109 to R111, R113; 43_jumps.md R141). -/
def dataAddresses : Instr → State → List Nat
  | .ldaIndX b, s =>
    let p := (b.toNat + s.x.toNat) % 256
    [p, (p + 1) % 256, s.zpPointer p]
  | .ldaIndY b, s => [b.toNat, (b.toNat + 1) % 256, (s.zpPointer b.toNat + s.y.toNat) % 65536]
  | .jmpInd w, _ => [w.toNat, 256 * (w.toNat / 256) + (w.toNat % 256 + 1) % 256]
  | i, s => (effectiveAddress i s).toList

/-- The byte a load reads: `op8` itself for Immediate, else memory at the effective address
(42_loads.md R138). -/
def loadedByte : Instr → State → Option Byte
  | .ldaImm v, _ | .ldxImm v, _ | .ldyImm v, _ => some v
  | i, s => (effectiveAddress i s).map s.byteAt

/-- The register an instruction writes, PC apart (10_state.md R23 to R25). -/
def destination (i : Instr) : Option Reg :=
  match i.operation with
  | .lda => some .a
  | .ldx | .inx => some .x
  | .ldy | .iny => some .y
  | .jmp => none

/-- The instruction is a load (42_loads.md). -/
def isLoad (i : Instr) : Bool :=
  i.operation == .lda || i.operation == .ldx || i.operation == .ldy

/-- The state after a load of `v` into a register: the register, Z and N from `v`, the data reads, the
count, and nothing else (10_state.md R30; 42_loads.md R138). -/
def State.loaded (s : State) (r : Reg) (v : Byte) (data : List BusRead) (cycles : Nat) :
    State :=
  { s with
    a := if r = .a then v else s.a
    x := if r = .x then v else s.x
    y := if r = .y then v else s.y
    flags := { s.flags with z := decide (v.toNat = 0), n := decide (128 ≤ v.toNat) }
    reads := s.reads ++ data
    report := some cycles }

/-- A read at the number `n`, with the byte memory holds there (20_memory.md R56). -/
def State.readOf (s : State) (n : Nat) : BusRead := (BitVec.ofNat 16 n, s.byteAt n)

/-- The 22 defined opcode bytes (30_encoding.md R66). -/
def definedOpcodes : List Byte :=
  [0xA9#8, 0xA5#8, 0xB5#8, 0xAD#8, 0xBD#8, 0xB9#8, 0xA1#8, 0xB1#8] ++
  [0xA2#8, 0xA6#8, 0xB6#8, 0xAE#8, 0xBE#8] ++
  [0xA0#8, 0xA4#8, 0xB4#8, 0xAC#8, 0xBC#8] ++
  [0x4C#8, 0x6C#8, 0xE8#8, 0xC8#8]

/-- The bytes the next step can fetch: at PC, PC + 1 and PC + 2, modulo 2^16 (30_encoding.md R61). -/
def State.codeBytes (s : State) : List Byte :=
  [s.mem.read s.pc, s.mem.read (s.pc + 1#16), s.mem.read (s.pc + 2#16)]

/-- The reads that fetching them makes, in order (40_execute_engine.md R83). -/
def State.codeReads (s : State) : List BusRead :=
  [(s.pc, s.mem.read s.pc), (s.pc + 1#16, s.mem.read (s.pc + 1#16)),
   (s.pc + 2#16, s.mem.read (s.pc + 2#16))]

/-- The state in which the handler runs: PC past the instruction, its bytes' fetches recorded
(10_state.md R27, 40_execute_engine.md R83). -/
def State.afterFetch (s : State) (i : Instr) : State :=
  { s with
    pc := s.pc + BitVec.ofNat 16 i.length
    reads := s.codeReads.take i.length
    report := none }

/-- How many bus reads the resolution phase makes, the opcode fetch not counted
(40_execute_engine.md R86). -/
def resolutionReads : Operation → Mode → Nat
  | _, .implied => 0
  | _, .immediate => 1
  | _, .zeroPage | _, .zeroPageX | _, .zeroPageY => 2
  | .jmp, .absolute => 2
  | _, .absolute | _, .absoluteX | _, .absoluteY => 3
  | _, .indirectX | _, .indirectY | _, .indirect => 4

end Sys2Proof.Machine
end

