-- ==== Sys2Proof/Certificates/Slice0/Obligations.lean ====
section
/-! DEFINITION. The statements for the provers. Every address in a statement is written in numbers, from
the formula of the rule, not through the machine's own resolvers. Base cycle counts stand as
`cycleBase op`, the model's CYCLE_BASE, except where a statement is about its default. Of the opcode bytes
named, 0xA9, 0xB5, 0xB1, 0x6C and 0xE8 are the source's own; the other 17 are the spec's choice (R65,
decision D12), which the model takes in notes/assumptions/4.md. -/

open Sys2Proof Sys2Proof.Machine

/-! ### Encoding -/

/-- Decoding an encoded instruction gives it back, whatever bytes follow: no bit of an operand is dropped
(spec/30_encoding.md R60 to R62). -/
def Obligations.EncodeThenDecode : Prop :=
  ∀ (i : Instr) (rest : List Byte), i.wf = true → decode (encode i ++ rest) = .ok i rest

/-- The other direction: the bytes a decode consumed are the instruction's encoding, so each byte string
has one meaning (30_encoding.md R61, R63). -/
def Obligations.DecodeThenEncode : Prop :=
  ∀ (bytes rest : List Byte) (i : Instr), decode bytes = .ok i rest →
    i.wf = true ∧ bytes = encode i ++ rest

/-- On a string of an opcode byte and two or more bytes after it, the decoder rejects by name exactly the
opcode bytes that are none of the 22, and answers an instruction of that opcode for each of the 22
(30_encoding.md R66, R68). Which bytes the 22 are is the spec's choice (R65, decision D12), PRESUMED in
notes/assumptions/4.md. -/
def Obligations.DecoderAcceptsExactlyTheOpcodeMap : Prop :=
  ∀ (op b1 b2 : Byte) (rest : List Byte),
    (op ∉ definedOpcodes → decode (op :: b1 :: b2 :: rest) = .undefinedOpcode op) ∧
    (op ∈ definedOpcodes → ∃ i r, decode (op :: b1 :: b2 :: rest) = .ok i r ∧ i.opcode = op)

/-- The length follows from the opcode byte alone (30_encoding.md R64): two byte strings that begin with
one opcode decode to instructions of one length, which is the number of bytes consumed. -/
def Obligations.LengthFollowsFromOpcode : Prop :=
  ∀ (op : Byte) (xs ys rx ry : List Byte) (i j : Instr),
    decode (op :: xs) = .ok i rx → decode (op :: ys) = .ok j ry →
    i.length = j.length ∧ i.length + rx.length = xs.length + 1

/-- The opcode map has 22 entries, no byte twice, each with a pair the map has and the page-cross flag of
its mode (30_encoding.md R66, R67). The bytes and the pairs are the spec's choice (R65, decision D12; C5),
PRESUMED in notes/assumptions/4.md and 5.md. -/
def Obligations.OpcodeMapIsWellFormed : Prop :=
  opRows.length = 22 ∧ (opRows.map Prod.fst).Nodup ∧ ∀ r ∈ opRows, r.2.wf = true

/-- Words written out from the encodings of 30_encoding.md R61 and R66, one or more of every family. The
opcode bytes 0xBD, 0xBE, 0xB4, 0x4C and 0xC8 among them are the spec's choice (R65, decision D12),
PRESUMED in notes/assumptions/4.md. -/
def Obligations.EncodingsReadAsWritten : Prop :=
  decode [0b10101001#8, 0x10#8] = .ok (.ldaImm 0x10#8) [] ∧
  decode [0b10111101#8, 0xF0#8, 0x12#8] = .ok (.ldaAbsX 0x12F0#16) [] ∧
  decode [0b10110001#8, 0x20#8] = .ok (.ldaIndY 0x20#8) [] ∧
  decode [0b10111110#8, 0xF5#8, 0x30#8] = .ok (.ldxAbsY 0x30F5#16) [] ∧
  decode [0b10110100#8, 0xFE#8] = .ok (.ldyZpX 0xFE#8) [] ∧
  decode [0b01001100#8, 0x00#8, 0x80#8] = .ok (.jmpAbs 0x8000#16) [] ∧
  decode [0b01101100#8, 0xFF#8, 0x30#8] = .ok (.jmpInd 0x30FF#16) [] ∧
  decode [0b11101000#8] = .ok .inx [] ∧
  decode [0b11001000#8] = .ok .iny [] ∧
  decode [0xEA#8] = .undefinedOpcode 0xEA#8

/-! ### Results and completion, one statement per shape

`exec i s` runs with `s.pc` already past the instruction. Each conclusion is the whole next state, the
recorded reads included (notes/assumptions/2.md). An opcode byte stands in it only as the argument of
`cycleBase` (notes/assumptions/4.md). -/

/-- LDA, LDX and LDY immediate (42_loads.md R120, R128, R133). -/
def Obligations.ImmediateLoadsComplete : Prop :=
  ∀ (v : Byte) (s : State),
    exec (.ldaImm v) s = .next (s.loaded .a v [] (cycleBase 0xA9#8)) ∧
    exec (.ldxImm v) s = .next (s.loaded .x v [] (cycleBase 0xA2#8)) ∧
    exec (.ldyImm v) s = .next (s.loaded .y v [] (cycleBase 0xA0#8))

/-- LDA, LDX and LDY zero page (42_loads.md R121, R129, R134; 41_addressing_modes.md R103). -/
def Obligations.ZeroPageLoadsComplete : Prop :=
  ∀ (b : Byte) (s : State),
    exec (.ldaZp b) s =
      .next (s.loaded .a (s.byteAt b.toNat) [s.readOf b.toNat] (cycleBase 0xA5#8)) ∧
    exec (.ldxZp b) s =
      .next (s.loaded .x (s.byteAt b.toNat) [s.readOf b.toNat] (cycleBase 0xA6#8)) ∧
    exec (.ldyZp b) s =
      .next (s.loaded .y (s.byteAt b.toNat) [s.readOf b.toNat] (cycleBase 0xA4#8))

/-- LDA zp,X, LDX zp,Y and LDY zp,X: the address is the sum modulo 256, so it stays in page 0
(42_loads.md R122, R130, R135; 41_addressing_modes.md R104, R105). -/
def Obligations.ZeroPageIndexedLoadsComplete : Prop :=
  ∀ (b : Byte) (s : State),
    let ex := (b.toNat + s.x.toNat) % 256
    let ey := (b.toNat + s.y.toNat) % 256
    exec (.ldaZpX b) s = .next (s.loaded .a (s.byteAt ex) [s.readOf ex] (cycleBase 0xB5#8)) ∧
    exec (.ldxZpY b) s = .next (s.loaded .x (s.byteAt ey) [s.readOf ey] (cycleBase 0xB6#8)) ∧
    exec (.ldyZpX b) s = .next (s.loaded .y (s.byteAt ex) [s.readOf ex] (cycleBase 0xB4#8))

/-- LDA, LDX and LDY absolute (42_loads.md R123, R131, R136; 41_addressing_modes.md R106). -/
def Obligations.AbsoluteLoadsComplete : Prop :=
  ∀ (w : Addr) (s : State),
    exec (.ldaAbs w) s = .next (s.loaded .a (s.byteAt w.toNat) [s.readOf w.toNat] (cycleBase 0xAD#8)) ∧
    exec (.ldxAbs w) s = .next (s.loaded .x (s.byteAt w.toNat) [s.readOf w.toNat] (cycleBase 0xAE#8)) ∧
    exec (.ldyAbs w) s = .next (s.loaded .y (s.byteAt w.toNat) [s.readOf w.toNat] (cycleBase 0xAC#8))

/-- LDA abs,X, LDA abs,Y, LDX abs,Y and LDY abs,X: the address is the sum modulo 65536, and one extra
cycle is charged exactly when the sum's high byte is not the base's (42_loads.md R124, R125, R132, R137;
41_addressing_modes.md R101, R107, R108; 40_execute_engine.md R90). -/
def Obligations.AbsoluteIndexedLoadsComplete : Prop :=
  ∀ (w : Addr) (s : State),
    let ex := (w.toNat + s.x.toNat) % 65536
    let ey := (w.toNat + s.y.toNat) % 65536
    let px := if ex / 256 = w.toNat / 256 then 0 else 1
    let py := if ey / 256 = w.toNat / 256 then 0 else 1
    exec (.ldaAbsX w) s = .next (s.loaded .a (s.byteAt ex) [s.readOf ex] (cycleBase 0xBD#8 + px)) ∧
    exec (.ldaAbsY w) s = .next (s.loaded .a (s.byteAt ey) [s.readOf ey] (cycleBase 0xB9#8 + py)) ∧
    exec (.ldxAbsY w) s = .next (s.loaded .x (s.byteAt ey) [s.readOf ey] (cycleBase 0xBE#8 + py)) ∧
    exec (.ldyAbsX w) s = .next (s.loaded .y (s.byteAt ex) [s.readOf ex] (cycleBase 0xBC#8 + px))

/-- LDA (zp,X): the pointer is at `b + X` in page 0, its high byte one further in page 0, and no crossing
is charged (42_loads.md R126; 41_addressing_modes.md R109, R111). That the pointer at 0xFF takes its
high byte from 0x0000 is the spec's decision D9 (notes/assumptions/7.md). -/
def Obligations.IndirectXLoadCompletes : Prop :=
  ∀ (b : Byte) (s : State),
    let p := (b.toNat + s.x.toNat) % 256
    let ea := 256 * (s.byteAt ((p + 1) % 256)).toNat + (s.byteAt p).toNat
    exec (.ldaIndX b) s =
      .next (s.loaded .a (s.byteAt ea) [s.readOf p, s.readOf ((p + 1) % 256), s.readOf ea]
        (cycleBase 0xA1#8))

/-- LDA (zp),Y: Y is added to the pointer at `b` modulo 65536, and a crossing costs one cycle
(42_loads.md R127; 41_addressing_modes.md R110, R111). The pointer's wrap is decision D9
(notes/assumptions/7.md). -/
def Obligations.IndirectYLoadCompletes : Prop :=
  ∀ (b : Byte) (s : State),
    let q := (b.toNat + 1) % 256
    let base := 256 * (s.byteAt q).toNat + (s.byteAt b.toNat).toNat
    let ea := (base + s.y.toNat) % 65536
    exec (.ldaIndY b) s =
      .next (s.loaded .a (s.byteAt ea) [s.readOf b.toNat, s.readOf q, s.readOf ea]
        (cycleBase 0xB1#8 + if ea / 256 = base / 256 then 0 else 1))

/-- JMP absolute: only PC, and the count (43_jumps.md R140). -/
def Obligations.JumpAbsoluteCompletes : Prop :=
  ∀ (w : Addr) (s : State),
    exec (.jmpAbs w) s = .next { s with pc := w, report := some (cycleBase 0x4C#8) }

/-- JMP indirect: the target's high byte comes from the pointer plus one wrapped within the pointer's
page, so a pointer 0x30FF takes it from 0x3000 (43_jumps.md R141). -/
def Obligations.JumpIndirectCompletes : Prop :=
  ∀ (ptr : Addr) (s : State),
    let h := 256 * (ptr.toNat / 256) + (ptr.toNat % 256 + 1) % 256
    exec (.jmpInd ptr) s =
      .next { s with
        pc := BitVec.ofNat 16 (256 * (s.byteAt h).toNat + (s.byteAt ptr.toNat).toNat)
        reads := s.reads ++ [s.readOf ptr.toNat, s.readOf h]
        report := some (cycleBase 0x6C#8) }

/-- INX and INY: the register plus one modulo 256, Z and N from the new value, no data read
(44_increments.md R150, R151). -/
def Obligations.IncrementsComplete : Prop :=
  ∀ s : State,
    let nx := BitVec.ofNat 8 ((s.x.toNat + 1) % 256)
    let ny := BitVec.ofNat 8 ((s.y.toNat + 1) % 256)
    exec .inx s = .next (s.loaded .x nx [] (cycleBase 0xE8#8)) ∧
    exec .iny s = .next (s.loaded .y ny [] (cycleBase 0xC8#8))

/-! ### Family rules and frames -/

/-- The properties common to every load (42_loads.md R138): it completes; its register holds the byte of
its mode, unmodified; Z and N are set from that byte and the other five flags keep their values; no other
register but PC changes; every byte of memory reads as before. That the pointer of an indirect mode
takes its high byte within page 0, and so from 0x0000 for a pointer at 0xFF, is the spec's decision D9
(41_addressing_modes.md R111; notes/assumptions/7.md). -/
def Obligations.EveryLoadObeysTheFamilyRule : Prop :=
  ∀ (i : Instr) (s : State), isLoad i = true →
    ∃ (r : Reg) (v : Byte) (t : State),
      destination i = some r ∧ loadedByte i s = some v ∧ exec i s = .next t ∧
      readReg r t = v ∧ (∀ r', r' ≠ r → readReg r' t = readReg r' s) ∧ t.sp = s.sp ∧
      t.flags.z = decide (v.toNat = 0) ∧ t.flags.n = v.getLsbD 7 ∧
      t.flags.c = s.flags.c ∧ t.flags.i = s.flags.i ∧ t.flags.d = s.flags.d ∧
      t.flags.b = s.flags.b ∧ t.flags.v = s.flags.v ∧
      ∀ addr, t.mem.read addr = s.mem.read addr

/-- Neither JMP changes A, X, Y, SP, any flag or memory (43_jumps.md R142). -/
def Obligations.JumpsChangeOnlyPc : Prop :=
  ∀ (i : Instr) (s : State), i.operation = .jmp →
    ∃ t, exec i s = .next t ∧ t.a = s.a ∧ t.x = s.x ∧ t.y = s.y ∧ t.sp = s.sp ∧ t.flags = s.flags ∧
      ∀ addr, t.mem.read addr = s.mem.read addr

/-- INX and INY change only their own register, Z, N and PC, and read no memory beyond the opcode fetch
(44_increments.md R152). -/
def Obligations.IncrementsChangeOnlyTheirRegister : Prop :=
  ∀ s : State,
    (∃ t, exec .inx s = .next t ∧ t.a = s.a ∧ t.y = s.y ∧ t.sp = s.sp ∧
      t.flags = { s.flags with z := t.flags.z, n := t.flags.n } ∧ t.reads = s.reads ∧
      ∀ addr, t.mem.read addr = s.mem.read addr) ∧
    (∃ t, exec .iny s = .next t ∧ t.a = s.a ∧ t.x = s.x ∧ t.sp = s.sp ∧
      t.flags = { s.flags with z := t.flags.z, n := t.flags.n } ∧ t.reads = s.reads ∧
      ∀ addr, t.mem.read addr = s.mem.read addr)

/-- The flag invariant (10_state.md R31): after a load or an increment, Zero is "result is 0" and Negative
is bit 7 of the result; the other flags are untouched by loads, jumps and increments. -/
def Obligations.FlagsFollowTheResult : Prop :=
  ∀ (i : Instr) (s t : State), exec i s = .next t →
    (∀ r, destination i = some r →
      (t.flags.z = true ↔ readReg r t = 0x00#8) ∧ (t.flags.n = true ↔ 128 ≤ (readReg r t).toNat)) ∧
    (destination i = none → t.flags = s.flags) ∧
    t.flags.c = s.flags.c ∧ t.flags.i = s.flags.i ∧ t.flags.d = s.flags.d ∧
    t.flags.b = s.flags.b ∧ t.flags.v = s.flags.v

/-- The page-cross cycle (40_execute_engine.md R93): one extra cycle exactly when the descriptor's flag is
set, which is so only for 0xBD, 0xB9, 0xB1, 0xBE and 0xBC, and the index addition changed the high byte;
never more than one. The bytes 0xBD, 0xB9, 0xBE and 0xBC are the spec's choice (R65, decision D12),
PRESUMED in notes/assumptions/4.md, and the base of (Indirect),Y at a pointer at 0xFF is its decision D9
(41_addressing_modes.md R111; notes/assumptions/7.md). -/
def Obligations.PageCrossChargesOneCycle : Prop :=
  ∀ (i : Instr) (s : State),
    (chargesCrossing i.opcode = true ↔ i.opcode ∈ [0xBD#8, 0xB9#8, 0xB1#8, 0xBE#8, 0xBC#8]) ∧
    ∃ t, exec i s = .next t ∧
      t.report = some (cycleBase i.opcode +
        if chargesCrossing i.opcode = true ∧ crossesPage i s = true then 1 else 0)

/-- The page-crossing rule itself (41_addressing_modes.md R101): the indexed address is the sum modulo
2^16, it crosses exactly when its high byte is not the base's, and the zero-page indexed modes never
set the bit. -/
def Obligations.PageCrossingComparesHighBytes : Prop :=
  ∀ (base : Addr) (index b : Byte) (r : Reg) (s : State),
    (indexedAddr base index).toNat = (base.toNat + index.toNat) % 65536 ∧
    (pageCrossed base index = true ↔ (indexedAddr base index).toNat / 256 ≠ base.toNat / 256) ∧
    (resolveZpIndexed b r s).crossed = false

/-- The default CYCLE_BASE counts (40_execute_engine.md R92). They are the spec's general knowledge, and the
model takes them (notes/assumptions/3.md): the title says so. -/
def Obligations.DefaultBaseCyclesOfEveryInstruction : Prop :=
  ∀ i : Instr, cycleBase i.opcode =
    match i.operation, i.mode with
    | _, .implied => 2
    | _, .immediate => 2
    | _, .zeroPage => 3
    | _, .zeroPageX => 4
    | _, .zeroPageY => 4
    | .jmp, .absolute => 3
    | _, .absolute => 4
    | _, .absoluteX => 4
    | _, .absoluteY => 4
    | _, .indirectX => 6
    | _, .indirectY => 5
    | _, .indirect => 5

/-! ### The step -/

/-- A step runs the instruction the bytes at PC decode to, with PC moved past its bytes and their fetches
recorded in order (40_execute_engine.md R82, R83; 10_state.md R27). That the fetches come before the meaning
runs is notes/assumptions/13.md, and that they are recorded notes/assumptions/2.md. -/
def Obligations.StepRunsTheDecodedInstruction : Prop :=
  ∀ (s : State) (i : Instr) (rest : List Byte), decode s.codeBytes = .ok i rest →
    step s = exec i (s.afterFetch i)

/-- A step completes exactly when the byte at PC is one of the 22 opcodes; otherwise it raises DecodeFault
with that byte and its address. Nothing else stops a step (60_exceptions.md R160, R164). Which bytes the 22
are is the spec's choice (R65, decision D12), PRESUMED in notes/assumptions/4.md, and that the fault
carries the two fields is its decision D5 (notes/assumptions/8.md). -/
def Obligations.StepCompletesExactlyOnDefinedOpcodes : Prop :=
  ∀ s : State,
    (s.mem.read s.pc ∈ definedOpcodes → ∃ t, step s = .next t) ∧
    (s.mem.read s.pc ∉ definedOpcodes → step s = .fault (.decodeFault (s.mem.read s.pc) s.pc))

/-- For a step whose instruction is not JMP, PC ends at the instruction's address plus its length modulo
2^16; for JMP absolute it ends at the operand (10_state.md R27, R28). -/
def Obligations.PcAfterAStep : Prop :=
  ∀ (s t : State) (i : Instr) (rest : List Byte), decode s.codeBytes = .ok i rest → step s = .next t →
    (i.operation ≠ .jmp → t.pc.toNat = (s.pc.toNat + i.length) % 65536) ∧
    (∀ w, i = .jmpAbs w → t.pc = w)

/-- No step writes memory, SP, C, I, D, B or V (10_state.md R26, R29; 20_memory.md R42). -/
def Obligations.NoStepWritesMemoryOrUnusedState : Prop :=
  ∀ s t : State, step s = .next t →
    t.mem = s.mem ∧ (∀ addr, t.mem.read addr = s.mem.read addr) ∧ t.sp = s.sp ∧
    t.flags.c = s.flags.c ∧ t.flags.i = s.flags.i ∧ t.flags.d = s.flags.d ∧
    t.flags.b = s.flags.b ∧ t.flags.v = s.flags.v

/-- Who writes each register and flag (10_state.md R23, R24, R25, R29): a step that changes A fetched an LDA
opcode, one that changes X an LDX opcode or INX, one that changes Y an LDY opcode or INY, and one that
changes a flag anything but a JMP. The opcode bytes listed per register are mostly the spec's choice (R65,
decision D12), PRESUMED in notes/assumptions/4.md. -/
def Obligations.OnlyTheirInstructionsWriteRegisters : Prop :=
  ∀ s t : State, step s = .next t →
    (t.a ≠ s.a → s.mem.read s.pc ∈
      [0xA9#8, 0xA5#8, 0xB5#8, 0xAD#8, 0xBD#8, 0xB9#8, 0xA1#8, 0xB1#8]) ∧
    (t.x ≠ s.x → s.mem.read s.pc ∈ [0xA2#8, 0xA6#8, 0xB6#8, 0xAE#8, 0xBE#8, 0xE8#8]) ∧
    (t.y ≠ s.y → s.mem.read s.pc ∈ [0xA0#8, 0xA4#8, 0xB4#8, 0xAC#8, 0xBC#8, 0xC8#8]) ∧
    (t.flags ≠ s.flags → s.mem.read s.pc ≠ 0x4C#8 ∧ s.mem.read s.pc ≠ 0x6C#8)

/-- A, SP, the seven flags and what the last step gave back are read by nothing: two states that agree on PC,
X, Y and memory fault alike, or both complete and agree again, on the reads and the count too. Each keeps
its own SP and its own C, I, D, B and V; A is loaded alike or kept in both; Z and N are set alike, or all
the flags are kept in both (10_state.md R23, R26, R29; 40_execute_engine.md R96). The reads and the count are
fields of the model's own (notes/assumptions/1.md, 2.md). -/
def Obligations.UnreadStateInfluencesNothing : Prop :=
  ∀ s u : State, u.pc = s.pc → u.x = s.x → u.y = s.y → u.mem = s.mem →
    (∀ f, step s = .fault f → step u = .fault f) ∧
    (∀ t, step s = .next t → ∃ w, step u = .next w ∧
      w.pc = t.pc ∧ w.x = t.x ∧ w.y = t.y ∧ w.mem = t.mem ∧ w.reads = t.reads ∧ w.report = t.report ∧
      t.sp = s.sp ∧ w.sp = u.sp ∧ (w.a = t.a ∨ (t.a = s.a ∧ w.a = u.a)) ∧
      ((w.flags.z = t.flags.z ∧ w.flags.n = t.flags.n) ∨ (t.flags = s.flags ∧ w.flags = u.flags)) ∧
      t.flags = { s.flags with z := t.flags.z, n := t.flags.n } ∧
      w.flags = { u.flags with z := w.flags.z, n := w.flags.n })

/-- The bus reads of a completed step, whole and in order: the fetches of the instruction's own bytes, then
its pointer and data reads at the addresses of its mode, each of the byte memory holds; their number is
one opcode fetch and the count of the mode's row (40_execute_engine.md R83, R86; 41_addressing_modes.md
R113; 20_memory.md R51). That a step makes exactly these reads and no others is the spec's decision D10
(R56, R115), and that they are recorded is the model's DESIGN CHOICE (notes/assumptions/2.md). That a
zero-page pointer's high byte is read at (p + 1) mod 256 is the spec's decision D9
(41_addressing_modes.md R111; notes/assumptions/7.md). -/
def Obligations.BusReadsOfAStep : Prop :=
  ∀ (s t : State) (i : Instr) (rest : List Byte), decode s.codeBytes = .ok i rest → step s = .next t →
    t.reads = s.codeReads.take i.length ++ (dataAddresses i s).map s.readOf ∧
    (∀ ea, effectiveAddress i s = some ea → t.reads.getLast? = some (s.readOf ea)) ∧
    t.reads.length = 1 + resolutionReads i.operation i.mode ∧
    ∀ e ∈ t.reads, s.mem.read e.1 = e.2

/-! ### The engine of R82 -/

/-- The machine's step is the engine written as 40_execute_engine.md R82 writes it, whose resolvers fetch
their own operands: the same next state, or the same fault, from every state. -/
def Obligations.StepIsTheMicroStepEngine : Prop :=
  ∀ s : State, step s = outcomeOf (engineStep cycleBase s)

/-- The micro-step costs of 40_execute_engine.md R91, summed along the step, are the count the step returns
under the default CYCLE_BASE. The costs are the spec's decision D7 (notes/assumptions/3.md). -/
def Obligations.MicroStepCostsSumToTheReport : Prop :=
  ∀ (s : State) (n : Nat), (engineStep cycleBase s).result = .ok n →
    (engineStep cycleBase s).cost = n ∧ (engineStep cycleBase s).state.report = some n

/-- Registers, flags, PC and memory after a step, the reads, and whether it faults do not depend on
CYCLE_BASE (40_execute_engine.md R96). -/
def Obligations.CycleBaseReachesOnlyTheReport : Prop :=
  ∀ (base base' : Byte → Nat) (s : State),
    (engineStep base s).state.architectural = (engineStep base' s).state.architectural ∧
    (engineStep base s).state.reads = (engineStep base' s).state.reads ∧
    ∀ f, (engineStep base s).result = .err f ↔ (engineStep base' s).result = .err f

/-- A step that raises DecodeFault changes no architectural state, PC included, and reports no count
(60_exceptions.md R161). That the increment of PC is undone is conflict C4's resolution
(notes/assumptions/9.md). That no count is reported is the spec's decision D18 (40_execute_engine.md R95),
and that the record then holds none is the model's DESIGN CHOICE (notes/assumptions/21.md). -/
def Obligations.DecodeFaultChangesNothing : Prop :=
  ∀ (base : Byte → Nat) (s : State) (f : Fault), (engineStep base s).result = .err f →
    (engineStep base s).state.architectural = s.architectural ∧
    (engineStep base s).state.pc = s.pc ∧ (engineStep base s).state.report = none

/-- A step repeated after its fault, with memory as it was and no reset, gives the same fault again
(60_exceptions.md R162). -/
def Obligations.DecodeFaultRepeats : Prop :=
  ∀ (base : Byte → Nat) (s : State) (f : Fault), (engineStep base s).result = .err f →
    (engineStep base (engineStep base s).state).result = .err f ∧ step (afterStep s) = .fault f

/-- The state a host finds after calling `step` is the one the engine ends in, after a completed step and after
a fault alike. That the record then is the faulting step's, its one read and no count, is the model's
DESIGN CHOICE (notes/assumptions/21.md); the rest of the state is 60_exceptions.md R161's. -/
def Obligations.StateAfterACallIsTheEngines : Prop :=
  ∀ s : State, afterStep s = (engineStep cycleBase s).state ∧
    (∀ f, step s = .fault f →
      (afterStep s).architectural = s.architectural ∧
      (afterStep s).reads = [(s.pc, s.mem.read s.pc)] ∧ (afterStep s).report = none)

/-! ### Memory -/

/-- A read after a write: the written byte at its address, every other byte as before
(20_memory.md R41, R42). The premise is the model's canonical form of memory (notes/assumptions/15.md). -/
def Obligations.ReadAfterWrite : Prop :=
  ∀ (m : Memory) (addr addr' : Addr) (v : Byte), m.wf = true →
    (m.write addr v).read addr' = if addr' = addr then v else m.read addr'

/-- The form is canonical: memories that read alike at every address are the same list
(notes/assumptions/15.md; 20_memory.md R40). -/
def Obligations.EqualReadsMeanEqualMemories : Prop :=
  ∀ m m' : Memory, m.wf = true → m'.wf = true → (∀ addr, m.read addr = m'.read addr) → m = m'

/-- A host write between steps is seen by the next step's fetches, with no fence (20_memory.md R51). A byte
written at PC is the opcode the step meets: an undefined one faults, and a defined one completes with that
fetch recorded first. A byte written at any of the instruction's own addresses, opcode or operand, is that
byte of the instruction the step runs, and its fetch is recorded in its place. That a fetch sees the write
is the spec's decision D11 (R54; notes/assumptions/18.md), the fault's fields are D5
(notes/assumptions/8.md), and which opcode bytes are defined is D12 (notes/assumptions/4.md). The premise is
the model's canonical form of memory (notes/assumptions/15.md), and the record of reads is the model's
(notes/assumptions/2.md). -/
def Obligations.NextFetchSeesAHostWrite : Prop :=
  ∀ (s : State) (v : Byte), s.mem.wf = true →
    (v ∉ definedOpcodes → step (hostWrite s.pc v s) = .fault (.decodeFault v s.pc)) ∧
    (v ∈ definedOpcodes →
      ∃ t, step (hostWrite s.pc v s) = .next t ∧ t.reads.head? = some (s.pc, v)) ∧
    (v = 0xE8#8 → ∃ t, step (hostWrite s.pc v s) = .next t ∧ t.x = s.x + 1#8) ∧
    (∀ (k : Nat) (i : Instr) (rest : List Byte),
      let addr := s.pc + BitVec.ofNat 16 k
      let u := hostWrite addr v s
      decode u.codeBytes = .ok i rest → k < i.length →
        (encode i)[k]? = some v ∧ step u = exec i (u.afterFetch i) ∧
        ∃ t, step u = .next t ∧ t.reads[k]? = some (addr, v))

/-! ### Reset, invariants and runs -/

/-- The reset operation, from any state: PC is 0xFFFC itself, SP 0xFF, every flag false, and A, X, Y and memory
keep their values (70_reset_and_hazards.md R180). That PC gets the number itself is conflict C1's
resolution (notes/assumptions/10.md). That A, X, Y and memory are kept is the spec's decision
D4 (notes/assumptions/6.md). -/
def Obligations.ResetOperation : Prop :=
  ∀ s : State, (resetCore s).pc = 0xFFFC#16 ∧ (resetCore s).sp = 0xFF#8 ∧
    (resetCore s).flags = ⟨false, false, false, false, false, false, false⟩ ∧
    (resetCore s).a = s.a ∧ (resetCore s).x = s.x ∧ (resetCore s).y = s.y ∧
    (∀ addr, (resetCore s).mem.read addr = s.mem.read addr) ∧
    (resetCore s).reads = [] ∧ (resetCore s).report = none

/-- The state right after reset is the reset operation after power-on, whose registers, flags and every byte
of memory are zero (10_state.md R35, 20_memory.md R41). -/
def Obligations.ResetFollowsPowerOn : Prop :=
  State.reset = resetCore State.powerOn ∧
  State.powerOn.pc = 0x0000#16 ∧ State.powerOn.sp = 0x00#8 ∧ State.powerOn.a = 0x00#8 ∧
  State.powerOn.x = 0x00#8 ∧ State.powerOn.y = 0x00#8 ∧
  State.powerOn.flags = ⟨false, false, false, false, false, false, false⟩ ∧
  ∀ addr, State.powerOn.mem.read addr = 0x00#8

/-- The invariant holds right after reset (10_state.md R35). That memory has a canonical form is the model's
DESIGN CHOICE (notes/assumptions/15.md), and the clauses on the record, empty then, are about fields of the
model's own (notes/assumptions/1.md, 2.md). -/
def Obligations.ResetSatisfiesTheInvariant : Prop := State.reset.Inv

/-- Every step that completes keeps the invariant, from every state that meets it. That a count is 2 to 6
rests on the default CYCLE_BASE (notes/assumptions/3.md), that memory has a canonical form on
notes/assumptions/15.md. -/
def Obligations.StepKeepsTheInvariant : Prop :=
  ∀ s t : State, s.Inv → step s = .next t → t.Inv

/-- Power-on meets the run invariant, and every action of the host keeps it, from every state that meets it:
a power-on, a reset, a write of any byte anywhere, and a step, which may complete or fault
(10_state.md R26, R32; 40_execute_engine.md R97). The list of actions is the model's form of the host
(notes/assumptions/16.md), and memory's canonical form is the model's (notes/assumptions/15.md). -/
def Obligations.HostActionsKeepTheRunInvariant : Prop :=
  State.powerOn.RunInv ∧ ∀ (act : HostAction) (s : State), s.RunInv → (hostAct act s).RunInv

/-- Whatever the host does from power-on on (writes, resets, power-ons and steps, in any order and number), C,
I, D, B and V stay false, SP is 0x00 or 0xFF, and memory stays in canonical form (10_state.md R26, R32;
40_execute_engine.md R97). The list of actions is the model's form of the host (notes/assumptions/16.md),
and memory's canonical form is the model's (notes/assumptions/15.md). -/
def Obligations.UnusedFlagsStayClearOnEveryRun : Prop :=
  ∀ acts : List HostAction,
    let s := runActions acts State.powerOn
    s.unusedFlagsClear ∧ (s.sp = 0x00#8 ∨ s.sp = 0xFF#8) ∧ s.mem.wf = true

/-- A run ends in no other way than a decode fault (40_execute_engine.md R98; 60_exceptions.md R164): any
number of steps from any state completes, or stops at DecodeFault with a byte that is none of the 22
opcodes and the address memory holds it at. The fault's two fields are the spec's decision D5
(notes/assumptions/8.md), and which bytes the 22 are is D12 (notes/assumptions/4.md). -/
def Obligations.RunsEndOnlyByDecodeFault : Prop :=
  ∀ (n : Nat) (s : State),
    SafeRun n s ∨
    ∃ op pc, Host.Core.run Sys2Proof.core n s = .fault (.decodeFault op pc) ∧
      op ∉ definedOpcodes ∧ s.mem.read pc = op

/-- A JMP to its own address repeats forever, one step at a time, and never faults (43_jumps.md R140;
40_execute_engine.md R98). That 0x4C is JMP is the spec's choice (R65, decision D12), PRESUMED in
notes/assumptions/4.md. -/
def Obligations.SelfJumpLoopsForever : Prop :=
  ∀ s : State, s.mem.read s.pc = 0x4C#8 → s.mem.read (s.pc + 1#16) = loByte s.pc →
    s.mem.read (s.pc + 2#16) = hiByte s.pc →
    ∀ n, ∃ t, Host.Core.run Sys2Proof.core n s = .next t ∧ t.architectural = s.architectural

/-- Every completed step returns a count, and the host's signed budget is debited by it; a fault returns none
and debits nothing (40_execute_engine.md R90, R94, R95). The signed budget and the fault that debits nothing are
the spec's decisions D8 and D18, which the model takes in notes/assumptions/16.md. That the count is at
least 2 rests on the default CYCLE_BASE (notes/assumptions/3.md). -/
def Obligations.BudgetIsDebitedByTheReportedCount : Prop :=
  ∀ (s : State) (remaining : Int),
    (∀ t, step s = .next t → ∃ n : Nat, t.report = some n ∧ 2 ≤ n ∧
      hostBudget remaining (step s) = remaining - n) ∧
    (∀ f, step s = .fault f → hostBudget remaining (step s) = remaining)
end

