-- ==== Sys2Proof/Laws/Decode.lean ====
section
/-! SUPPORT. The small lemmas of the bit-field helpers, the opcode map and the decoder. -/

namespace Sys2Proof

/-! ### Bytes and addresses in numbers (00_scope.md R8) -/

@[simp] theorem zext16_toNat {b : Byte} : (zext16 b).toNat = b.toNat := by
  exact (BitVec.toNat_append 0x00#8 b).trans (by simp)

theorem join_toNat {hi lo : Byte} : (join hi lo).toNat = 256 * hi.toNat + lo.toNat := by
  have := lo.isLt
  simp only [join, BitVec.toNat_append]
  rw [← Nat.shiftLeft_add_eq_or_of_lt this, Nat.shiftLeft_eq]
  omega

theorem loByte_toNat {w : Addr} : (loByte w).toNat = w.toNat % 256 := by
  simp [loByte, BitVec.extractLsb'_toNat]

theorem hiByte_toNat {w : Addr} : (hiByte w).toNat = w.toNat / 256 := by
  have := w.isLt
  simp only [hiByte, BitVec.extractLsb'_toNat, Nat.shiftRight_eq_div_pow]
  omega

/-- A 16-bit operand is its two bytes joined, high byte first (30_encoding.md R62). -/
@[simp] theorem join_hiByte_loByte {w : Addr} : join (hiByte w) (loByte w) = w := by
  apply BitVec.eq_of_toNat_eq
  rw [join_toNat, hiByte_toNat, loByte_toNat]
  omega

@[simp] theorem hiByte_join {hi lo : Byte} : hiByte (join hi lo) = hi := by
  apply BitVec.eq_of_toNat_eq
  have := lo.isLt
  rw [hiByte_toNat, join_toNat]
  omega

@[simp] theorem loByte_join {hi lo : Byte} : loByte (join hi lo) = lo := by
  apply BitVec.eq_of_toNat_eq
  have := lo.isLt
  rw [loByte_toNat, join_toNat]
  omega

/-! ### The opcode map -/

/-- Every instruction's opcode byte has the descriptor of its operation and mode. -/
theorem opTable_opcode (i : Instr) :
    ∃ d, opTable i.opcode = some d ∧ d.operation = i.operation ∧ d.mode = i.mode := by
  cases i <;> exact ⟨_, rfl, rfl, rfl⟩

/-- The number of operand bytes the opcode asks for is the number the instruction has. -/
theorem operandBytes_opcode (i : Instr) : operandBytes i.opcode = i.operands.length := by
  cases i <;> rfl

/-- An entry of the map is well formed: its pair exists and its page-cross flag is its mode's
(30_encoding.md R66, R67). -/
theorem opTable_wf : ∀ (op : Byte) (d : Descriptor), opTable op = some d → d.wf = true := by
  have h : ∀ op : Byte, (match opTable op with | some d => d.wf | none => true) = true := by decide
  intro op d hd
  simpa [hd] using h op

/-- The operand bytes a decode leaves are those past the instruction's own. -/
theorem decodeOperands_ok {op : Byte} {d : Descriptor} {bytes rest : List Byte} {i : Instr}
    (h : decodeOperands op d bytes = .ok i rest) :
    bytes.drop (operandCount d.mode) = rest := by
  unfold decodeOperands at h
  split at h <;> try split at h
  all_goals simp_all

end Sys2Proof
end

