-- ==== Sys2Proof/Laws/Memory.lean ====
section
/-! SUPPORT. The canonical form of memory: every operation that makes a memory keeps it
(notes/assumptions/15.md). -/

namespace Sys2Proof.Machine

@[simp] theorem Memory.wfFrom_nil {lo : Nat} : Memory.wfFrom lo [] = true := rfl

@[simp] theorem Memory.wfFrom_cons {lo k : Nat} {v : Byte} {rest : Memory} :
    Memory.wfFrom lo ((k, v) :: rest) = true ↔
      lo ≤ k ∧ k < Config.memorySize ∧ v ≠ Config.unwrittenByte ∧ Memory.wfFrom (k + 1) rest = true := by
  simp [Memory.wfFrom, and_assoc]

/-- A memory whose keys start later is also one whose keys start earlier. -/
theorem Memory.wfFrom_mono {lo lo' : Nat} {m : Memory} (hle : lo' ≤ lo) (h : m.wfFrom lo = true) :
    m.wfFrom lo' = true := by
  cases m with
  | nil => rfl
  | cons c rest =>
    rw [Memory.wfFrom_cons] at h ⊢
    exact ⟨by omega, h.2⟩

theorem Memory.consCell_wfFrom {lo key : Nat} {v : Byte} {m : Memory} (hlo : lo ≤ key)
    (hkey : key < Config.memorySize) (h : m.wfFrom (key + 1) = true) :
    (Memory.consCell key v m).wfFrom lo = true := by
  unfold Memory.consCell
  split
  · exact Memory.wfFrom_mono (by omega) h
  · rw [Memory.wfFrom_cons]
    exact ⟨hlo, hkey, ‹_›, h⟩

theorem Memory.put_wfFrom {lo key : Nat} {v : Byte} {m : Memory} (hlo : lo ≤ key)
    (hkey : key < Config.memorySize) (h : m.wfFrom lo = true) : (m.put key v).wfFrom lo = true := by
  induction m generalizing lo with
  | nil => exact Memory.consCell_wfFrom hlo hkey rfl
  | cons c rest ih =>
    obtain ⟨k, w⟩ := c
    have hc := Memory.wfFrom_cons.mp h
    unfold Memory.put
    split
    · refine Memory.consCell_wfFrom hlo hkey (Memory.wfFrom_cons.mpr ⟨by omega, hc.2⟩)
    · split
      · subst k
        exact Memory.consCell_wfFrom hlo hkey hc.2.2.2
      · rw [Memory.wfFrom_cons]
        exact ⟨hc.1, hc.2.1, hc.2.2.1, ih (by omega) hc.2.2.2⟩

/-- A byte write keeps the canonical form (20_memory.md R42). -/
theorem Memory.write_wf {m : Memory} {addr : Addr} {v : Byte} (h : m.wf = true) :
    (m.write addr v).wf = true :=
  Memory.put_wfFrom (Nat.zero_le _) addr.isLt h

/-- Placing a program's bytes keeps it. -/
theorem placeBytes_wf {bytes : List Byte} {addr : Addr} {m : Memory} (h : m.wf = true) :
    (placeBytes bytes addr m).wf = true := by
  induction bytes generalizing addr m with
  | nil => exact h
  | cons b rest ih => exact ih (Memory.write_wf h)

theorem hostWrite_wf {addr : Addr} {v : Byte} {s : State} (h : s.mem.wf = true) :
    (hostWrite addr v s).mem.wf = true :=
  Memory.write_wf h

theorem withFetchWord_wf {s : State} {nbits w : Nat} (h : s.mem.wf = true) :
    (s.withFetchWord nbits w).mem.wf = true :=
  placeBytes_wf h

/-- Reset memory, which lists nothing, is in canonical form. -/
theorem reset_mem_wf : State.reset.mem.wf = true := rfl

theorem powerOn_mem_wf : State.powerOn.mem.wf = true := rfl

/-- A key below every listed one reads as an unwritten byte. -/
theorem Memory.cellAt_below {lo key : Nat} {m : Memory} (h : m.wfFrom lo = true) (hlt : key < lo) :
    m.cellAt key = Config.unwrittenByte := by
  induction m generalizing lo with
  | nil => rfl
  | cons c rest ih =>
    obtain ⟨k, w⟩ := c
    have hc := Memory.wfFrom_cons.mp h
    unfold Memory.cellAt
    rw [if_neg (by omega)]
    exact ih hc.2.2.2 (by omega)

end Sys2Proof.Machine
end

