-- ==== Sys2Proof/Laws/State.lean ====
section
/-! SUPPORT. What each update of the state does to each field, one lemma a field, so that no later proof
unfolds a record update. -/

namespace Sys2Proof.Machine

@[simp] theorem busRead_value {addr : Addr} {s : State} : (busRead addr s).1 = s.mem.read addr := rfl

@[simp] theorem writePc_pc {target : Addr} {s : State} : (writePc target s).pc = target := rfl
@[simp] theorem writePc_sp {target : Addr} {s : State} : (writePc target s).sp = s.sp := rfl
@[simp] theorem writePc_a {target : Addr} {s : State} : (writePc target s).a = s.a := rfl
@[simp] theorem writePc_x {target : Addr} {s : State} : (writePc target s).x = s.x := rfl
@[simp] theorem writePc_y {target : Addr} {s : State} : (writePc target s).y = s.y := rfl
@[simp] theorem writePc_flags {target : Addr} {s : State} : (writePc target s).flags = s.flags := rfl
@[simp] theorem writePc_mem {target : Addr} {s : State} : (writePc target s).mem = s.mem := rfl
@[simp] theorem writePc_reads {target : Addr} {s : State} : (writePc target s).reads = s.reads := rfl
@[simp] theorem writePc_report {target : Addr} {s : State} : (writePc target s).report = s.report := rfl

@[simp] theorem setZN_pc {v : Byte} {s : State} : (setZN v s).pc = s.pc := rfl
@[simp] theorem setZN_sp {v : Byte} {s : State} : (setZN v s).sp = s.sp := rfl
@[simp] theorem setZN_a {v : Byte} {s : State} : (setZN v s).a = s.a := rfl
@[simp] theorem setZN_x {v : Byte} {s : State} : (setZN v s).x = s.x := rfl
@[simp] theorem setZN_y {v : Byte} {s : State} : (setZN v s).y = s.y := rfl
@[simp] theorem setZN_flags {v : Byte} {s : State} : (setZN v s).flags = { s.flags with z := v == 0x00#8, n := v.getLsbD 7 } := rfl
@[simp] theorem setZN_mem {v : Byte} {s : State} : (setZN v s).mem = s.mem := rfl
@[simp] theorem setZN_reads {v : Byte} {s : State} : (setZN v s).reads = s.reads := rfl
@[simp] theorem setZN_report {v : Byte} {s : State} : (setZN v s).report = s.report := rfl

@[simp] theorem busRead_pc {addr : Addr} {s : State} : (busRead addr s).2.pc = s.pc := rfl
@[simp] theorem busRead_sp {addr : Addr} {s : State} : (busRead addr s).2.sp = s.sp := rfl
@[simp] theorem busRead_a {addr : Addr} {s : State} : (busRead addr s).2.a = s.a := rfl
@[simp] theorem busRead_x {addr : Addr} {s : State} : (busRead addr s).2.x = s.x := rfl
@[simp] theorem busRead_y {addr : Addr} {s : State} : (busRead addr s).2.y = s.y := rfl
@[simp] theorem busRead_flags {addr : Addr} {s : State} : (busRead addr s).2.flags = s.flags := rfl
@[simp] theorem busRead_mem {addr : Addr} {s : State} : (busRead addr s).2.mem = s.mem := rfl
@[simp] theorem busRead_reads {addr : Addr} {s : State} : (busRead addr s).2.reads = s.reads ++ [(addr, s.mem.read addr)] := rfl
@[simp] theorem busRead_report {addr : Addr} {s : State} : (busRead addr s).2.report = s.report := rfl

@[simp] theorem beginStep_pc {s : State} : (beginStep s).pc = s.pc := rfl
@[simp] theorem beginStep_sp {s : State} : (beginStep s).sp = s.sp := rfl
@[simp] theorem beginStep_a {s : State} : (beginStep s).a = s.a := rfl
@[simp] theorem beginStep_x {s : State} : (beginStep s).x = s.x := rfl
@[simp] theorem beginStep_y {s : State} : (beginStep s).y = s.y := rfl
@[simp] theorem beginStep_flags {s : State} : (beginStep s).flags = s.flags := rfl
@[simp] theorem beginStep_mem {s : State} : (beginStep s).mem = s.mem := rfl
@[simp] theorem beginStep_reads {s : State} : (beginStep s).reads = [] := rfl
@[simp] theorem beginStep_report {s : State} : (beginStep s).report = none := rfl

@[simp] theorem retire_pc {op : Byte} {crossed : Bool} {s : State} : (retire op crossed s).pc = s.pc := rfl
@[simp] theorem retire_sp {op : Byte} {crossed : Bool} {s : State} : (retire op crossed s).sp = s.sp := rfl
@[simp] theorem retire_a {op : Byte} {crossed : Bool} {s : State} : (retire op crossed s).a = s.a := rfl
@[simp] theorem retire_x {op : Byte} {crossed : Bool} {s : State} : (retire op crossed s).x = s.x := rfl
@[simp] theorem retire_y {op : Byte} {crossed : Bool} {s : State} : (retire op crossed s).y = s.y := rfl
@[simp] theorem retire_flags {op : Byte} {crossed : Bool} {s : State} : (retire op crossed s).flags = s.flags := rfl
@[simp] theorem retire_mem {op : Byte} {crossed : Bool} {s : State} : (retire op crossed s).mem = s.mem := rfl
@[simp] theorem retire_reads {op : Byte} {crossed : Bool} {s : State} : (retire op crossed s).reads = s.reads := rfl
@[simp] theorem retire_report {op : Byte} {crossed : Bool} {s : State} : (retire op crossed s).report = some (cyclesOf cycleBase op crossed) := rfl

@[simp] theorem resetCore_pc {s : State} : (resetCore s).pc = Config.resetPc := rfl
@[simp] theorem resetCore_sp {s : State} : (resetCore s).sp = Config.resetSp := rfl
@[simp] theorem resetCore_a {s : State} : (resetCore s).a = s.a := rfl
@[simp] theorem resetCore_x {s : State} : (resetCore s).x = s.x := rfl
@[simp] theorem resetCore_y {s : State} : (resetCore s).y = s.y := rfl
@[simp] theorem resetCore_flags {s : State} : (resetCore s).flags = Flags.clear := rfl
@[simp] theorem resetCore_mem {s : State} : (resetCore s).mem = s.mem := rfl
@[simp] theorem resetCore_reads {s : State} : (resetCore s).reads = [] := rfl
@[simp] theorem resetCore_report {s : State} : (resetCore s).report = none := rfl

@[simp] theorem hostWrite_pc {addr : Addr} {v : Byte} {s : State} : (hostWrite addr v s).pc = s.pc := rfl
@[simp] theorem hostWrite_sp {addr : Addr} {v : Byte} {s : State} : (hostWrite addr v s).sp = s.sp := rfl
@[simp] theorem hostWrite_a {addr : Addr} {v : Byte} {s : State} : (hostWrite addr v s).a = s.a := rfl
@[simp] theorem hostWrite_x {addr : Addr} {v : Byte} {s : State} : (hostWrite addr v s).x = s.x := rfl
@[simp] theorem hostWrite_y {addr : Addr} {v : Byte} {s : State} : (hostWrite addr v s).y = s.y := rfl
@[simp] theorem hostWrite_flags {addr : Addr} {v : Byte} {s : State} : (hostWrite addr v s).flags = s.flags := rfl
@[simp] theorem hostWrite_mem {addr : Addr} {v : Byte} {s : State} : (hostWrite addr v s).mem = s.mem.write addr v := rfl
@[simp] theorem hostWrite_reads {addr : Addr} {v : Byte} {s : State} : (hostWrite addr v s).reads = s.reads := rfl
@[simp] theorem hostWrite_report {addr : Addr} {v : Byte} {s : State} : (hostWrite addr v s).report = s.report := rfl

@[simp] theorem afterFault_pc {s : State} : (afterFault s).pc = s.pc := rfl
@[simp] theorem afterFault_sp {s : State} : (afterFault s).sp = s.sp := rfl
@[simp] theorem afterFault_a {s : State} : (afterFault s).a = s.a := rfl
@[simp] theorem afterFault_x {s : State} : (afterFault s).x = s.x := rfl
@[simp] theorem afterFault_y {s : State} : (afterFault s).y = s.y := rfl
@[simp] theorem afterFault_flags {s : State} : (afterFault s).flags = s.flags := rfl
@[simp] theorem afterFault_mem {s : State} : (afterFault s).mem = s.mem := rfl
@[simp] theorem afterFault_reads {s : State} : (afterFault s).reads = [(s.pc, s.mem.read s.pc)] := rfl
@[simp] theorem afterFault_report {s : State} : (afterFault s).report = none := rfl

/-- A fault changes no architectural state (60_exceptions.md R161). -/
@[simp] theorem afterFault_architectural {s : State} : (afterFault s).architectural = s.architectural := rfl

@[simp] theorem writeReg_pc {r : Reg} {v : Byte} {s : State} : (writeReg r v s).pc = s.pc := by cases r <;> rfl
@[simp] theorem writeReg_sp {r : Reg} {v : Byte} {s : State} : (writeReg r v s).sp = s.sp := by cases r <;> rfl
@[simp] theorem writeReg_a {r : Reg} {v : Byte} {s : State} :
    (writeReg r v s).a = if r = .a then v else s.a := by cases r <;> rfl
@[simp] theorem writeReg_x {r : Reg} {v : Byte} {s : State} :
    (writeReg r v s).x = if r = .x then v else s.x := by cases r <;> rfl
@[simp] theorem writeReg_y {r : Reg} {v : Byte} {s : State} :
    (writeReg r v s).y = if r = .y then v else s.y := by cases r <;> rfl
@[simp] theorem writeReg_flags {r : Reg} {v : Byte} {s : State} : (writeReg r v s).flags = s.flags := by cases r <;> rfl
@[simp] theorem writeReg_mem {r : Reg} {v : Byte} {s : State} : (writeReg r v s).mem = s.mem := by cases r <;> rfl
@[simp] theorem writeReg_reads {r : Reg} {v : Byte} {s : State} : (writeReg r v s).reads = s.reads := by cases r <;> rfl
@[simp] theorem writeReg_report {r : Reg} {v : Byte} {s : State} : (writeReg r v s).report = s.report := by cases r <;> rfl

@[simp] theorem readReg_a {s : State} : readReg .a s = s.a := rfl
@[simp] theorem readReg_x {s : State} : readReg .x s = s.x := rfl
@[simp] theorem readReg_y {s : State} : readReg .y s = s.y := rfl

/-- A register written reads back, and no other register changes (10_state.md R21). -/
theorem readReg_writeReg {r r' : Reg} {v : Byte} {s : State} :
    readReg r' (writeReg r v s) = if r' = r then v else readReg r' s := by
  cases r <;> cases r' <;> rfl

end Sys2Proof.Machine
end

