-- ==== Sys2Proof/Laws/Ops.lean ====
section
/-! SUPPORT. One lemma per shared operation: everything it does, which the provers cite instead of
unfolding it. -/

namespace Sys2Proof.Machine

/-! ### Fetching -/

/-- Fetch8 reads the byte at PC, moves PC on by one modulo 2^16, and records the read. -/
theorem fetch8_eq (s : State) :
    fetch8 s = (s.mem.read s.pc,
      { s with pc := s.pc + 1#16, reads := s.reads ++ [(s.pc, s.mem.read s.pc)] }) := rfl

theorem fetchBytes_zero (s : State) : fetchBytes 0 s = ([], s) := rfl

theorem fetchBytes_one (s : State) : fetchBytes 1 s = ([(fetch8 s).1], (fetch8 s).2) := rfl

theorem fetchBytes_two (s : State) :
    fetchBytes 2 s = ([(fetch8 s).1, (fetch8 (fetch8 s).2).1], (fetch8 (fetch8 s).2).2) := rfl

/-- As many bytes come back as were asked for. -/
theorem fetchBytes_length (n : Nat) (s : State) : (fetchBytes n s).1.length = n := by
  induction n generalizing s with
  | zero => rfl
  | succ n ih => simp [fetchBytes, ih]

/-- Fetching changes only PC and the record of reads. -/
theorem fetchBytes_frame (n : Nat) (s : State) :
    (fetchBytes n s).2.mem = s.mem ∧ (fetchBytes n s).2.sp = s.sp ∧ (fetchBytes n s).2.a = s.a ∧
    (fetchBytes n s).2.x = s.x ∧ (fetchBytes n s).2.y = s.y ∧ (fetchBytes n s).2.flags = s.flags ∧
    (fetchBytes n s).2.report = s.report := by
  induction n generalizing s with
  | zero => exact ⟨rfl, rfl, rfl, rfl, rfl, rfl, rfl⟩
  | succ n ih => exact ih (fetch8 s).2

/-! ### The resolvers and ReadOperand -/

/-- Reading at a resolved address gives memory's byte there and records that one read. -/
theorem readAt_eq (r : Resolution) :
    readAt r = ⟨r.state.mem.read r.ea, r.crossed,
      { r.state with reads := r.state.reads ++ [(r.ea, r.state.mem.read r.ea)] }⟩ := rfl

/-- ReadPtrZP: the two bytes and the two reads, in order (41_addressing_modes.md R111). -/
theorem readPtrZp_eq (p : Byte) (s : State) :
    readPtrZp p s = (join (s.mem.read (zext16 (p + 1#8))) (s.mem.read (zext16 p)),
      { s with reads := s.reads ++ [(zext16 p, s.mem.read (zext16 p))] ++
          [(zext16 (p + 1#8), s.mem.read (zext16 (p + 1#8)))] }) := rfl

/-- The jump target through a pointer: the two bytes and the two reads, in order (43_jumps.md R141). -/
theorem readJumpTarget_eq (ptr : Addr) (s : State) :
    readJumpTarget ptr s =
      (join (s.mem.read (join (hiByte ptr) (loByte ptr + 1#8))) (s.mem.read ptr),
        { s with reads := s.reads ++ [(ptr, s.mem.read ptr)] ++
            [(join (hiByte ptr) (loByte ptr + 1#8),
              s.mem.read (join (hiByte ptr) (loByte ptr + 1#8)))] }) := rfl

/-- The indexed address in numbers (41_addressing_modes.md R101). -/
theorem indexedAddr_eq_ofNat (base : Addr) (index : Byte) :
    indexedAddr base index = BitVec.ofNat 16 ((base.toNat + index.toNat) % 65536) := by
  apply BitVec.eq_of_toNat_eq
  simp [indexedAddr, BitVec.toNat_add]

/-- A zero-page address in numbers (00_scope.md R8). -/
theorem zext16_eq_ofNat (b : Byte) : zext16 b = BitVec.ofNat 16 b.toNat := by
  apply BitVec.eq_of_toNat_eq
  have := b.isLt
  simp
  omega

/-- Two joined bytes in numbers (00_scope.md R8). -/
theorem join_eq_ofNat (hi lo : Byte) : join hi lo = BitVec.ofNat 16 (256 * hi.toNat + lo.toNat) := by
  apply BitVec.eq_of_toNat_eq
  have := hi.isLt
  have := lo.isLt
  rw [join_toNat, BitVec.toNat_ofNat]
  omega

/-! ### Completing -/

/-- A load always completes, in the state its operand's reads left, with the register, Z, N and the count
written. -/
theorem load_eq (dest : Reg) (op : Byte) (v : Operand) :
    load dest op v = .next (retire op v.crossed (setZN v.value (writeReg dest v.value v.state))) := rfl

/-- An increment always completes. -/
theorem increment_eq (r : Reg) (op : Byte) (s : State) :
    increment r op s =
      .next (retire op false (setZN (readReg r s + 1#8) (writeReg r (readReg r s + 1#8) s))) := rfl

/-- The fault is the outcome, and nothing else (60_exceptions.md R160). -/
theorem raiseDecodeFault_eq (op : Byte) (pc : Addr) :
    raiseDecodeFault op pc = .fault (.decodeFault op pc) := rfl

/-- A step is a fault or what exec answers; it never refuses by itself. -/
theorem step_cases (s : State) :
    (∃ i t, fetchInstr (beginStep s) = .instr i t ∧ step s = exec i t) ∨
    (∃ op, fetchInstr (beginStep s) = .undefined op ∧ step s = .fault (.decodeFault op s.pc)) := by
  unfold step
  cases h : fetchInstr (beginStep s) with
  | instr i t => exact .inl ⟨i, t, rfl, rfl⟩
  | undefined op => exact .inr ⟨op, rfl, rfl⟩

/-- After a step that completes, the host sees its next state. -/
theorem afterStep_next {s t : State} (h : step s = .next t) : afterStep s = t := by
  simp only [afterStep, h]

/-- After a step that faults, the host sees the state before it, with the faulting step's record. -/
theorem afterStep_fault {s : State} {f : Fault} (h : step s = .fault f) : afterStep s = afterFault s := by
  simp only [afterStep, h]

/-- A run whose first step completes goes on from the next state. -/
theorem core_run_next {s t : State} (h : step s = .next t) (n : Nat) :
    Host.Core.run Sys2Proof.core (n + 1) s = Host.Core.run Sys2Proof.core n t := by
  have h' : Sys2Proof.core.step s = .next t := h
  simp only [Host.Core.run, h']

/-- A run whose first step faults ends with that fault. -/
theorem core_run_fault {s : State} {f : Fault} (h : step s = .fault f) (n : Nat) :
    Host.Core.run Sys2Proof.core (n + 1) s = .fault f := by
  have h' : Sys2Proof.core.step s = .fault f := h
  simp only [Host.Core.run, h']

/-- The host's actions compose along a list. -/
theorem runActions_append (xs ys : List HostAction) (s : State) :
    runActions (xs ++ ys) s = runActions ys (runActions xs s) := by
  induction xs generalizing s with
  | nil => rfl
  | cons act rest ih => exact ih (hostAct act s)

end Sys2Proof.Machine
end

