-- ==== Sys2Proof/Laws/PerInstr.lean ====
section
/-! SUPPORT. The families of statements over every instruction as syntax, one lemma a constructor
(LAWS.json). -/

namespace Sys2Proof.Laws

/-- An instruction's encoding has its format's length (30_encoding.md R60). -/
def EncodedLength.Statement (i : Instr) : Prop := (encode i).length = i.length

/-- An instruction is well formed: the opcode map has its operation in its mode (30_encoding.md R66). -/
def PairInMap.Statement (i : Instr) : Prop := i.wf = true

theorem EncodedLength.ldaImm (op : Byte) : EncodedLength.Statement (.ldaImm op) := rfl
theorem EncodedLength.ldaZp (op : Byte) : EncodedLength.Statement (.ldaZp op) := rfl
theorem EncodedLength.ldaZpX (op : Byte) : EncodedLength.Statement (.ldaZpX op) := rfl
theorem EncodedLength.ldaAbs (op : Addr) : EncodedLength.Statement (.ldaAbs op) := rfl
theorem EncodedLength.ldaAbsX (op : Addr) : EncodedLength.Statement (.ldaAbsX op) := rfl
theorem EncodedLength.ldaAbsY (op : Addr) : EncodedLength.Statement (.ldaAbsY op) := rfl
theorem EncodedLength.ldaIndX (op : Byte) : EncodedLength.Statement (.ldaIndX op) := rfl
theorem EncodedLength.ldaIndY (op : Byte) : EncodedLength.Statement (.ldaIndY op) := rfl
theorem EncodedLength.ldxImm (op : Byte) : EncodedLength.Statement (.ldxImm op) := rfl
theorem EncodedLength.ldxZp (op : Byte) : EncodedLength.Statement (.ldxZp op) := rfl
theorem EncodedLength.ldxZpY (op : Byte) : EncodedLength.Statement (.ldxZpY op) := rfl
theorem EncodedLength.ldxAbs (op : Addr) : EncodedLength.Statement (.ldxAbs op) := rfl
theorem EncodedLength.ldxAbsY (op : Addr) : EncodedLength.Statement (.ldxAbsY op) := rfl
theorem EncodedLength.ldyImm (op : Byte) : EncodedLength.Statement (.ldyImm op) := rfl
theorem EncodedLength.ldyZp (op : Byte) : EncodedLength.Statement (.ldyZp op) := rfl
theorem EncodedLength.ldyZpX (op : Byte) : EncodedLength.Statement (.ldyZpX op) := rfl
theorem EncodedLength.ldyAbs (op : Addr) : EncodedLength.Statement (.ldyAbs op) := rfl
theorem EncodedLength.ldyAbsX (op : Addr) : EncodedLength.Statement (.ldyAbsX op) := rfl
theorem EncodedLength.jmpAbs (op : Addr) : EncodedLength.Statement (.jmpAbs op) := rfl
theorem EncodedLength.jmpInd (op : Addr) : EncodedLength.Statement (.jmpInd op) := rfl
theorem EncodedLength.inx : EncodedLength.Statement .inx := rfl
theorem EncodedLength.iny : EncodedLength.Statement .iny := rfl

theorem PairInMap.ldaImm (op : Byte) : PairInMap.Statement (.ldaImm op) := rfl
theorem PairInMap.ldaZp (op : Byte) : PairInMap.Statement (.ldaZp op) := rfl
theorem PairInMap.ldaZpX (op : Byte) : PairInMap.Statement (.ldaZpX op) := rfl
theorem PairInMap.ldaAbs (op : Addr) : PairInMap.Statement (.ldaAbs op) := rfl
theorem PairInMap.ldaAbsX (op : Addr) : PairInMap.Statement (.ldaAbsX op) := rfl
theorem PairInMap.ldaAbsY (op : Addr) : PairInMap.Statement (.ldaAbsY op) := rfl
theorem PairInMap.ldaIndX (op : Byte) : PairInMap.Statement (.ldaIndX op) := rfl
theorem PairInMap.ldaIndY (op : Byte) : PairInMap.Statement (.ldaIndY op) := rfl
theorem PairInMap.ldxImm (op : Byte) : PairInMap.Statement (.ldxImm op) := rfl
theorem PairInMap.ldxZp (op : Byte) : PairInMap.Statement (.ldxZp op) := rfl
theorem PairInMap.ldxZpY (op : Byte) : PairInMap.Statement (.ldxZpY op) := rfl
theorem PairInMap.ldxAbs (op : Addr) : PairInMap.Statement (.ldxAbs op) := rfl
theorem PairInMap.ldxAbsY (op : Addr) : PairInMap.Statement (.ldxAbsY op) := rfl
theorem PairInMap.ldyImm (op : Byte) : PairInMap.Statement (.ldyImm op) := rfl
theorem PairInMap.ldyZp (op : Byte) : PairInMap.Statement (.ldyZp op) := rfl
theorem PairInMap.ldyZpX (op : Byte) : PairInMap.Statement (.ldyZpX op) := rfl
theorem PairInMap.ldyAbs (op : Addr) : PairInMap.Statement (.ldyAbs op) := rfl
theorem PairInMap.ldyAbsX (op : Addr) : PairInMap.Statement (.ldyAbsX op) := rfl
theorem PairInMap.jmpAbs (op : Addr) : PairInMap.Statement (.jmpAbs op) := rfl
theorem PairInMap.jmpInd (op : Addr) : PairInMap.Statement (.jmpInd op) := rfl
theorem PairInMap.inx : PairInMap.Statement .inx := rfl
theorem PairInMap.iny : PairInMap.Statement .iny := rfl

end Sys2Proof.Laws
end

