-- ==== Sys2Proof/Tests/Slice0.lean ====
section
/-! SUPPORT. Tests of the model's own work: the words of spec/30_encoding.md, the vectors of
spec/95_test_vectors.md (named by their ids there), the ill-formed terms WellFormed refuses, and a
concrete witness for the hypotheses of every obligation that has some. -/

namespace Sys2Proof.Tests

open Sys2Proof.Machine

/-! ### Helpers -/

/-- A memory with these bytes written, all else zero. -/
def memOf (cells : List (Nat × Byte)) : Memory :=
  cells.foldl (fun m c => m.write (BitVec.ofNat 16 c.1) c.2) []

/-- Bytes laid out from an address on. -/
def code (at_ : Nat) (bytes : List Byte) : List (Nat × Byte) := bytes.zipIdx.map (fun b => (at_ + b.2, b.1))

/-- The state after reset with these bytes in memory and PC there: the start state of 95_test_vectors.md. -/
def start (pc : Nat) (bytes : List Byte) (data : List (Nat × Byte)) : State :=
  { State.reset with pc := BitVec.ofNat 16 pc, mem := memOf (code pc bytes ++ data) }

/-- One view of the state a step reached. -/
def view {α : Type} (f : State → α) (r : Result) : Option α :=
  match r with
  | .next t => some (f t)
  | .fault _ => none
  | .refused _ => none

/-- The fault a step raised. -/
def faultOf (r : Result) : Option Fault :=
  match r with
  | .next _ => none
  | .fault f => some f
  | .refused _ => none

/-- What a vector gives: the register, Z, N, PC, the count, and the addresses read in order. -/
structure Seen where
  reg : Byte
  z : Bool
  n : Bool
  pc : Addr
  cycles : Option Nat
  reads : List Addr
deriving DecidableEq, Repr

def seen (r : Reg) (t : State) : Seen :=
  ⟨readReg r t, t.flags.z, t.flags.n, t.pc, t.report, t.reads.map Prod.fst⟩

/-! ### Decoding: the words of 30_encoding.md R61 and R66, bit by bit -/

theorem test_decode_lda :
    decode [0b10101001#8, 0x10#8] = .ok (.ldaImm 0x10#8) [] ∧
    decode [0b10100101#8, 0x10#8] = .ok (.ldaZp 0x10#8) [] ∧
    decode [0b10110101#8, 0x10#8] = .ok (.ldaZpX 0x10#8) [] ∧
    decode [0b10101101#8, 0x34#8, 0x12#8] = .ok (.ldaAbs 0x1234#16) [] ∧
    decode [0b10111101#8, 0x34#8, 0x12#8] = .ok (.ldaAbsX 0x1234#16) [] ∧
    decode [0b10111001#8, 0x34#8, 0x12#8] = .ok (.ldaAbsY 0x1234#16) [] ∧
    decode [0b10100001#8, 0x20#8] = .ok (.ldaIndX 0x20#8) [] ∧
    decode [0b10110001#8, 0x20#8] = .ok (.ldaIndY 0x20#8) [] := by decide

theorem test_decode_ldx :
    decode [0b10100010#8, 0xFF#8] = .ok (.ldxImm 0xFF#8) [] ∧
    decode [0b10100110#8, 0x10#8] = .ok (.ldxZp 0x10#8) [] ∧
    decode [0b10110110#8, 0x10#8] = .ok (.ldxZpY 0x10#8) [] ∧
    decode [0b10101110#8, 0x00#8, 0xC0#8] = .ok (.ldxAbs 0xC000#16) [] ∧
    decode [0b10111110#8, 0xF5#8, 0x30#8] = .ok (.ldxAbsY 0x30F5#16) [] := by decide

theorem test_decode_ldy :
    decode [0b10100000#8, 0xFE#8] = .ok (.ldyImm 0xFE#8) [] ∧
    decode [0b10100100#8, 0x00#8] = .ok (.ldyZp 0x00#8) [] ∧
    decode [0b10110100#8, 0xFE#8] = .ok (.ldyZpX 0xFE#8) [] ∧
    decode [0b10101100#8, 0xFF#8, 0xFF#8] = .ok (.ldyAbs 0xFFFF#16) [] ∧
    decode [0b10111100#8, 0x80#8, 0x20#8] = .ok (.ldyAbsX 0x2080#16) [] := by decide

theorem test_decode_jumps_increments :
    decode [0b01001100#8, 0x00#8, 0x80#8] = .ok (.jmpAbs 0x8000#16) [] ∧
    decode [0b01101100#8, 0xFF#8, 0x30#8] = .ok (.jmpInd 0x30FF#16) [] ∧
    decode [0b11101000#8, 0x77#8] = .ok .inx [0x77#8] ∧
    decode [0b11001000#8] = .ok .iny [] := by decide

/-- The bytes 30_encoding.md R68 names as undefined are rejected by name, and a cut-off instruction is
rejected as such. -/
theorem test_decode_rejects :
    [0x00#8, 0x40#8, 0x69#8, 0x85#8, 0xEA#8, 0x20#8, 0xA3#8, 0xA7#8, 0xAF#8, 0xB3#8, 0xFF#8].all
      (fun op => decide (decode [op, 0x10#8, 0x20#8] = .undefinedOpcode op)) = true ∧
    decode [] = .truncated ∧ decode [0xAD#8, 0x34#8] = .truncated := by decide

theorem test_encode : encode (.ldaAbs 0x0010#16) = [0xAD#8, 0x10#8, 0x00#8] ∧
    encode (.jmpInd 0x8080#16) = [0x6C#8, 0x80#8, 0x80#8] ∧ encode .inx = [0xE8#8] := by decide

/-- A table row's bits alone, its operand bytes zero, and with operands. -/
theorem test_table_word : decodeTableWord 8 0xB1 = some (.ldaIndY 0x00#8) ∧
    decodeTableWord 24 0x1234AD = some (.ldaAbs 0x1234#16) ∧ decodeTableWord 8 0xEA = none := by decide

/-! ### Ill-formed terms are refused (30_encoding.md R66, R67; 90_conflicts.md C5) -/

theorem test_wf_refuses_pairs : pairExists .ldx .indirectX = false ∧ pairExists .ldy .absoluteY = false ∧
    pairExists .jmp .immediate = false ∧ pairExists .inx .zeroPage = false ∧
    pairExists .iny .absolute = false ∧ pairExists .lda .zeroPageY = false := by decide

theorem test_wf_refuses_descriptors :
    Descriptor.wf ⟨.ldx, .indirectX, 6, false⟩ = false ∧
    Descriptor.wf ⟨.lda, .zeroPageX, 4, true⟩ = false ∧
    Descriptor.wf ⟨.lda, .absoluteX, 4, false⟩ = false := by decide

/-! ### Loads (95_test_vectors.md) -/

/-- E1 -/
theorem test_ldaImm_E1 : view (seen .a) (step (start 0xFFFC [0xA9#8, 0x10#8] [])) =
    some ⟨0x10#8, false, false, 0xFFFE#16, some 2,
      [0xFFFC#16, 0xFFFD#16]⟩ := by decide

/-- L4: the five other flags stay as a launch state has them. -/
theorem test_ldaImm_L4 :
    view State.flags (step { start 0x0200 [0xA9#8, 0xFF#8] [] with
      flags := ⟨true, false, true, true, true, true, false⟩ }) =
    some ⟨true, false, true, true, true, true, true⟩ := by decide

/-- L5 -/
theorem test_ldaZp_L5 : view (seen .a) (step (start 0x0200 [0xA5#8, 0xFF#8] [(0x00FF, 0x01#8)])) =
    some ⟨0x01#8, false, false, 0x0202#16, some 3,
      [0x0200#16, 0x0201#16, 0x00FF#16]⟩ := by decide

/-- L27 with LDA zero page: the operand of an opcode at 0xFFFF comes from 0x0000 (20_memory.md R45). -/
theorem test_ldaZp_wraps : view (seen .a) (step (start 0xFFFF [0xA5#8] [(0x0000, 0x33#8), (0x0033, 0x80#8)])) =
    some ⟨0x80#8, false, true, 0x0001#16, some 3,
      [0xFFFF#16, 0x0000#16, 0x0033#16]⟩ := by decide

/-- L6: the sum wraps in page 0, and X is not added to the value. -/
theorem test_ldaZpX_L6 : view (seen .a) (step { start 0x0200 [0xB5#8, 0xFF#8] [(0x0001, 0x99#8), (0x0101, 0x11#8)] with x := 0x02#8 }) =
    some ⟨0x99#8, false, true, 0x0202#16, some 4,
      [0x0200#16, 0x0201#16, 0x0001#16]⟩ := by decide

/-- E2 as 90_conflicts.md C2 corrects it: the byte is the one at 0x0015. -/
theorem test_ldaZpX_E2 : view (seen .a) (step { start 0xFFFC [0xB5#8, 0x10#8] [(0x0010, 0x11#8)] with x := 0x05#8 }) =
    some ⟨0x00#8, true, false, 0xFFFE#16, some 4,
      [0xFFFC#16, 0xFFFD#16, 0x0015#16]⟩ := by decide

/-- L28: the operand bytes of an opcode at 0xFFFE come from 0xFFFF and 0x0000. -/
theorem test_ldaAbs_L28 : view (seen .a) (step (start 0xFFFE [0xAD#8, 0x00#8] [(0x0000, 0xC0#8), (0xC000, 0x11#8)])) =
    some ⟨0x11#8, false, false, 0x0001#16, some 4,
      [0xFFFE#16, 0xFFFF#16, 0x0000#16, 0xC000#16]⟩ := by decide

/-- L10 -/
theorem test_ldaAbsX_L10 : view (seen .a) (step { start 0x0200 [0xBD#8, 0xF0#8, 0x12#8] [(0x1300, 0x80#8)] with x := 0x10#8 }) =
    some ⟨0x80#8, false, true, 0x0203#16, some 5,
      [0x0200#16, 0x0201#16, 0x0202#16, 0x1300#16]⟩ := by decide

/-- L12: the sum wraps modulo 2^16, and that is a crossing. -/
theorem test_ldaAbsX_L12 : view (seen .a) (step { start 0x0200 [0xBD#8, 0xFF#8, 0xFF#8] [] with x := 0x01#8 }) =
    some ⟨0x00#8, true, false, 0x0203#16, some 5,
      [0x0200#16, 0x0201#16, 0x0202#16, 0x0000#16]⟩ := by decide

/-- The example of 42_loads.md R125: the last byte of the page is no crossing. -/
theorem test_ldaAbsY_R125 : view (seen .a) (step { start 0x0200 [0xB9#8, 0x00#8, 0x12#8] [(0x12FF, 0x01#8)] with y := 0xFF#8 }) =
    some ⟨0x01#8, false, false, 0x0203#16, some 4,
      [0x0200#16, 0x0201#16, 0x0202#16, 0x12FF#16]⟩ := by decide

/-- L13 -/
theorem test_ldaAbsY_L13 : view (seen .a) (step { start 0x0200 [0xB9#8, 0x80#8, 0x00#8] [(0x0100, 0x08#8)] with y := 0x80#8 }) =
    some ⟨0x08#8, false, false, 0x0203#16, some 5,
      [0x0200#16, 0x0201#16, 0x0202#16, 0x0100#16]⟩ := by decide

/-- L14 -/
theorem test_ldaIndX_L14 : view (seen .a) (step { start 0x0200 [0xA1#8, 0x3C#8] [(0x0040, 0x34#8), (0x0041, 0x12#8), (0x1234, 0x80#8)] with x := 0x04#8 }) =
    some ⟨0x80#8, false, true, 0x0202#16, some 6,
      [0x0200#16, 0x0201#16, 0x0040#16, 0x0041#16, 0x1234#16]⟩ := by decide

/-- L15: a pointer at 0xFF takes its high byte from 0x0000. -/
theorem test_ldaIndX_L15 : view (seen .a) (step { start 0x0200 [0xA1#8, 0xFE#8] [(0x0000, 0x03#8), (0x0100, 0x09#8), (0x0300, 0x5A#8)] with x := 0x01#8 }) =
    some ⟨0x5A#8, false, false, 0x0202#16, some 6,
      [0x0200#16, 0x0201#16, 0x00FF#16, 0x0000#16, 0x0300#16]⟩ := by decide

/-- E3, with a byte at the address. -/
theorem test_ldaIndY_E3 : view (seen .a) (step { start 0xFFFC [0xB1#8, 0x20#8] [(0x0020, 0xFF#8), (0x0021, 0x30#8), (0x3101, 0x77#8)] with y := 0x02#8 }) =
    some ⟨0x77#8, false, false, 0xFFFE#16, some 6,
      [0xFFFC#16, 0xFFFD#16, 0x0020#16, 0x0021#16, 0x3101#16]⟩ := by decide

/-- L18: the pointer at 0xFF, its high byte from 0x0000. -/
theorem test_ldaIndY_L18 : view (seen .a) (step (start 0x0200 [0xB1#8, 0xFF#8] [(0x00FF, 0x10#8), (0x0000, 0x40#8), (0x0100, 0x77#8), (0x7710, 0x55#8)])) =
    some ⟨0x00#8, true, false, 0x0202#16, some 5,
      [0x0200#16, 0x0201#16, 0x00FF#16, 0x0000#16, 0x4010#16]⟩ := by decide

/-- L20 -/
theorem test_ldxImm_L20 : view (seen .x) (step { start 0x0200 [0xA2#8, 0x00#8] [] with x := 0x55#8 }) =
    some ⟨0x00#8, true, false, 0x0202#16, some 2,
      [0x0200#16, 0x0201#16]⟩ := by decide

/-- L30 -/
theorem test_ldxZp_L30 : view (seen .x) (step (start 0x0200 [0xA6#8, 0x10#8] [(0x0010, 0x7F#8)])) =
    some ⟨0x7F#8, false, false, 0x0202#16, some 3,
      [0x0200#16, 0x0201#16, 0x0010#16]⟩ := by decide

/-- L21: indexed by Y, not by X. -/
theorem test_ldxZpY_L21 : view (seen .x) (step { start 0x0200 [0xB6#8, 0xFF#8] [(0x0029, 0x81#8)] with y := 0x2A#8 }) =
    some ⟨0x81#8, false, true, 0x0202#16, some 4,
      [0x0200#16, 0x0201#16, 0x0029#16]⟩ := by decide

/-- L29: an address inside the instruction itself. -/
theorem test_ldxAbs_L29 : view (seen .x) (step (start 0x0200 [0xAE#8, 0x01#8, 0x02#8] [])) =
    some ⟨0x01#8, false, false, 0x0203#16, some 4,
      [0x0200#16, 0x0201#16, 0x0202#16, 0x0201#16]⟩ := by decide

/-- L22 -/
theorem test_ldxAbsY_L22 : view (seen .x) (step { start 0x0200 [0xBE#8, 0xF5#8, 0x30#8] [(0x3105, 0x7F#8)] with y := 0x10#8 }) =
    some ⟨0x7F#8, false, false, 0x0203#16, some 5,
      [0x0200#16, 0x0201#16, 0x0202#16, 0x3105#16]⟩ := by decide

/-- L26 -/
theorem test_ldyImm_L26 : view (seen .y) (step (start 0x0200 [0xA0#8, 0x80#8] [])) =
    some ⟨0x80#8, false, true, 0x0202#16, some 2,
      [0x0200#16, 0x0201#16]⟩ := by decide

/-- L31 -/
theorem test_ldyZp_L31 : view (seen .y) (step (start 0x0200 [0xA4#8, 0x00#8] [(0x0000, 0x01#8)])) =
    some ⟨0x01#8, false, false, 0x0202#16, some 3,
      [0x0200#16, 0x0201#16, 0x0000#16]⟩ := by decide

/-- L23 -/
theorem test_ldyZpX_L23 : view (seen .y) (step { start 0x0200 [0xB4#8, 0xFE#8] [(0x0001, 0x2A#8)] with x := 0x03#8 }) =
    some ⟨0x2A#8, false, false, 0x0202#16, some 4,
      [0x0200#16, 0x0201#16, 0x0001#16]⟩ := by decide

/-- L32 -/
theorem test_ldyAbs_L32 : view (seen .y) (step (start 0x0200 [0xAC#8, 0xFF#8, 0xFF#8] [(0xFFFF, 0xC0#8)])) =
    some ⟨0xC0#8, false, true, 0x0203#16, some 4,
      [0x0200#16, 0x0201#16, 0x0202#16, 0xFFFF#16]⟩ := by decide

/-- L24: the last byte of the page. -/
theorem test_ldyAbsX_L24 : view (seen .y) (step { start 0x0200 [0xBC#8, 0x80#8, 0x20#8] [] with x := 0x7F#8 }) =
    some ⟨0x00#8, true, false, 0x0203#16, some 4,
      [0x0200#16, 0x0201#16, 0x0202#16, 0x20FF#16]⟩ := by decide

/-- L25: the first byte of the next page. -/
theorem test_ldyAbsX_L25 : view (seen .y) (step { start 0x0200 [0xBC#8, 0x81#8, 0x20#8] [(0x2100, 0x90#8)] with x := 0x7F#8 }) =
    some ⟨0x90#8, false, true, 0x0203#16, some 5,
      [0x0200#16, 0x0201#16, 0x0202#16, 0x2100#16]⟩ := by decide

/-! ### Jumps and increments -/

/-- J7: the operand wraps to 0x0000, and the flags stay. -/
theorem test_jmpAbs_J7 : view (seen .a) (step { start 0xFFFE [0x4C#8, 0x00#8] [(0x0000, 0x90#8)] with flags := ⟨false, true, false, false, false, false, true⟩ }) =
    some ⟨0x00#8, true, true, 0x9000#16, some 3,
      [0xFFFE#16, 0xFFFF#16, 0x0000#16]⟩ := by decide

/-- E4 -/
theorem test_jmpInd_E4 : view (seen .a) (step (start 0xFFFC [0x6C#8, 0x80#8, 0x80#8] [(0x8080, 0x90#8), (0x8081, 0x80#8)])) =
    some ⟨0x00#8, false, false, 0x8090#16, some 5,
      [0xFFFC#16, 0xFFFD#16, 0xFFFE#16, 0x8080#16, 0x8081#16]⟩ := by decide

/-- J3: the high byte comes from 0x3000, not from 0x3100. -/
theorem test_jmpInd_J3 : view (seen .a) (step (start 0xFFFC [0x6C#8, 0xFF#8, 0x30#8] [(0x3000, 0x40#8), (0x3100, 0x50#8)])) =
    some ⟨0x00#8, false, false, 0x4000#16, some 5,
      [0xFFFC#16, 0xFFFD#16, 0xFFFE#16, 0x30FF#16, 0x3000#16]⟩ := by decide

/-- E5 -/
theorem test_inx_E5 : view (seen .x) (step { start 0xFFFC [0xE8#8] [] with x := 0xFF#8 }) =
    some ⟨0x00#8, true, false, 0xFFFD#16, some 2,
      [0xFFFC#16]⟩ := by decide

/-- I6: the carry stays, Z and N are cleared. -/
theorem test_inx_I6 :
    view State.flags (step { start 0x0200 [0xE8#8] [] with
      x := 0x05#8, flags := ⟨true, true, false, false, false, false, true⟩ }) =
    some ⟨true, false, false, false, false, false, false⟩ := by decide

/-- I4 at 0xFFFF, where PC wraps as in I7. -/
theorem test_iny_I4 : view (seen .y) (step { start 0xFFFF [0xC8#8] [] with y := 0xFE#8 }) =
    some ⟨0xFF#8, false, true, 0x0000#16, some 2,
      [0xFFFF#16]⟩ := by decide

/-! ### The decode fault, reset and the host -/

/-- F1 to F4 -/
theorem test_fault_F1_F4 :
    faultOf (step (start 0xFFFC [0xFF#8] [])) = some (.decodeFault 0xFF#8 0xFFFC#16) ∧
    faultOf (step (start 0x0200 [] [])) = some (.decodeFault 0x00#8 0x0200#16) ∧
    faultOf (step (start 0x0200 [0xEA#8] [])) = some (.decodeFault 0xEA#8 0x0200#16) ∧
    faultOf (step (start 0x0200 [0xA3#8] [])) = some (.decodeFault 0xA3#8 0x0200#16) := by decide

/-- F6: the state after F1 is F1's, but for the record of the read, and the fault comes again; the engine
undoes the fetch's increment. -/
theorem test_fault_F6 :
    (afterStep (start 0xFFFC [0xFF#8] [])).architectural = start 0xFFFC [0xFF#8] [] ∧
    faultOf (step (afterStep (start 0xFFFC [0xFF#8] []))) = some (.decodeFault 0xFF#8 0xFFFC#16) ∧
    (engineStep cycleBase (start 0xFFFC [0xFF#8] [])).state.pc = 0xFFFC#16 ∧
    causeCode (.decodeFault 0xFF#8 0xFFFC#16) = 0 := by decide

/-- S3: reset keeps A, X, Y and memory. -/
theorem test_reset_S3 :
    resetCore { start 0x8006 [] [(0x0002, 0x80#8)] with
      a := 0x80#8, x := 0x01#8, y := 0x02#8, flags := ⟨false, false, false, false, false, false, true⟩ } =
    { State.reset with a := 0x80#8, x := 0x01#8, y := 0x02#8, mem := [(0x0002, 0x80#8)] } := by decide

/-- S4: no vector is read. -/
theorem test_reset_S4 : faultOf (step (start 0xFFFC [0x00#8, 0x80#8] [])) =
    some (.decodeFault 0x00#8 0xFFFC#16) := by decide

/-- S5: a step before any reset. -/
theorem test_power_on_S5 : view (seen .x) (step { State.powerOn with mem := memOf [(0x0000, 0xE8#8)] }) =
    some ⟨0x01#8, false, false, 0x0001#16, some 2, [0x0000#16]⟩ := by decide

/-- S6 and S7: the host's budget. -/
theorem test_budget_S6_S7 :
    hostBudget 3 (step { start 0x0200 [0xBD#8, 0xF0#8, 0x12#8] [] with x := 0x10#8 }) = -2 ∧
    hostBudget 10 (step (start 0xFFFC [0xFF#8] [])) = 10 := by decide

/-- 70_reset_and_hazards.md R181: power on, write the program, reset, step. -/
theorem test_host_boot :
    (runActions [.powerOn, .write 0xFFFC#16 0x4C#8, .write 0xFFFE#16 0x80#8, .reset, .step] State.reset).pc =
      0x8000#16 := by decide

/-- A write of the value an unlisted byte reads as removes the cell. -/
theorem test_memory_canonical :
    (memOf [(5, 0x01#8), (3, 0x02#8), (5, 0x00#8), (0xFFFF, 0x03#8)]) = [(3, 0x02#8), (0xFFFF, 0x03#8)] ∧
    (memOf [(5, 0x01#8), (3, 0x02#8)]).wf = true ∧
    Memory.wf [(5, 0x01#8), (3, 0x02#8)] = false ∧ Memory.wf [(3, 0x00#8)] = false ∧
    Memory.wf [(0x10000, 0x01#8)] = false := by decide

theorem test_withFetchWord : view (seen .a) (step (State.reset.withFetchWord 16 0x10A9)) =
    some ⟨0x10#8, false, false, 0xFFFE#16, some 2, [0xFFFC#16, 0xFFFD#16]⟩ := by decide

/-! ### Witnesses: a state and operands that meet each statement's hypotheses together -/

/-- LDA #$80 at 0xFFFE: the operand is the last byte of the address space. -/
def ldaWitness : State := start 0xFFFE [0xA9#8, 0x80#8] []

/-- An undefined opcode, at the last address. -/
def faultWitness : State := start 0xFFFF [0xEA#8] []

theorem witness_EncodeThenDecode : (Instr.ldaAbs 0xFFFF#16).wf = true := by decide

theorem witness_DecodeThenEncode : decode [0x6C#8, 0xFF#8, 0x00#8, 0x01#8] = .ok (.jmpInd 0x00FF#16) [0x01#8] := by
  decide

theorem witness_DecoderAcceptsExactlyTheOpcodeMap :
    0xFF#8 ∉ definedOpcodes ∧ 0x00#8 ∉ definedOpcodes ∧ 0xA9#8 ∈ definedOpcodes ∧ 0xC8#8 ∈ definedOpcodes := by
  decide

theorem witness_LengthFollowsFromOpcode :
    decode [0xB5#8, 0x00#8] = .ok (.ldaZpX 0x00#8) [] ∧
    decode [0xB5#8, 0xFF#8, 0x01#8] = .ok (.ldaZpX 0xFF#8) [0x01#8] := by decide

theorem witness_EveryLoadObeysTheFamilyRule : isLoad (.ldaIndY 0xFF#8) = true ∧ isLoad (.ldxImm 0x00#8) = true := by
  decide

theorem witness_JumpsChangeOnlyPc : (Instr.jmpInd 0x30FF#16).operation = .jmp := rfl

/-- Both clauses: a load of zero with bit 7 clear, and a jump, which has no destination. -/
theorem witness_FlagsFollowTheResult :
    (∃ t, exec (.ldaImm 0x00#8) State.reset = .next t) ∧ destination (.ldaImm 0x00#8) = some .a ∧
    (∃ t, exec (.jmpAbs 0xFFFF#16) State.reset = .next t) ∧ destination (.jmpAbs 0xFFFF#16) = none :=
  ⟨⟨_, rfl⟩, rfl, ⟨_, rfl⟩, rfl⟩

theorem witness_StepRunsTheDecodedInstruction :
    decode ldaWitness.codeBytes = .ok (.ldaImm 0x80#8) [0x00#8] := by decide

theorem witness_StepCompletesExactlyOnDefinedOpcodes :
    ldaWitness.mem.read ldaWitness.pc ∈ definedOpcodes ∧
    faultWitness.mem.read faultWitness.pc ∉ definedOpcodes := by decide

/-- Both clauses: PC wraps past 0xFFFF, and a JMP absolute. -/
theorem witness_PcAfterAStep :
    decode ldaWitness.codeBytes = .ok (.ldaImm 0x80#8) [0x00#8] ∧
    view State.pc (step ldaWitness) = some 0x0000#16 ∧
    decode (start 0xFFFC [0x4C#8, 0x00#8, 0x80#8] []).codeBytes = .ok (.jmpAbs 0x8000#16) [] ∧
    view State.pc (step (start 0xFFFC [0x4C#8, 0x00#8, 0x80#8] [])) = some 0x8000#16 := by decide

theorem witness_NoStepWritesMemoryOrUnusedState : ∃ t, step ldaWitness = .next t := ⟨_, rfl⟩

/-- Each clause: a step that changes A and a flag, one that changes X, one that changes Y. -/
theorem witness_OnlyTheirInstructionsWriteRegisters :
    (∃ t, step ldaWitness = .next t ∧ t.a ≠ ldaWitness.a ∧ t.flags ≠ ldaWitness.flags) ∧
    (∃ t, step (start 0xFFFF [0xE8#8] []) = .next t ∧ t.x ≠ 0x00#8) ∧
    (∃ t, step (start 0xFFFF [0xC8#8] []) = .next t ∧ t.y ≠ 0x00#8) :=
  ⟨⟨_, rfl, by decide, by decide⟩, ⟨_, rfl, by decide⟩, ⟨_, rfl, by decide⟩⟩

/-- Each clause, with two states that differ in A, SP, every flag and what the last step gave back. -/
theorem witness_UnreadStateInfluencesNothing :
    (∃ t, step ldaWitness = .next t) ∧
    (∃ t, step { ldaWitness with
        a := 0x55#8, sp := 0x00#8, flags := ⟨true, true, true, true, true, true, true⟩, report := some 9 } =
      .next t) ∧
    step faultWitness = .fault (.decodeFault 0xEA#8 0xFFFF#16) :=
  ⟨⟨_, rfl⟩, ⟨_, rfl⟩, rfl⟩

/-- A load that reads through a pointer at 0xFF, the boundary of page 0. -/
theorem witness_BusReadsOfAStep :
    decode (start 0xFFFE [0xB1#8, 0xFF#8] []).codeBytes = .ok (.ldaIndY 0xFF#8) [0x00#8] ∧
    dataAddresses (.ldaIndY 0xFF#8) (start 0xFFFE [0xB1#8, 0xFF#8] []) = [0xFF, 0x00, 0x0000] ∧
    effectiveAddress (.ldaIndY 0xFF#8) (start 0xFFFE [0xB1#8, 0xFF#8] []) = some 0x0000 ∧
    ∃ t, step (start 0xFFFE [0xB1#8, 0xFF#8] []) = .next t :=
  ⟨by decide, by decide, by decide, ⟨_, rfl⟩⟩

theorem witness_MicroStepCostsSumToTheReport : (engineStep cycleBase ldaWitness).result = .ok 2 := by decide

theorem witness_DecodeFaultChangesNothing_and_Repeats :
    (engineStep cycleBase faultWitness).result = .err (.decodeFault 0xEA#8 0xFFFF#16) := by decide

theorem witness_ReadAfterWrite : (memOf [(0x0000, 0x01#8), (0xFFFF, 0x02#8)]).wf = true := by decide

theorem witness_EqualReadsMeanEqualMemories :
    (memOf [(0x0000, 0x01#8), (0xFFFF, 0x02#8)]).wf = true ∧
    ∀ addr, (memOf [(0x0000, 0x01#8), (0xFFFF, 0x02#8)]).read addr =
      (memOf [(0xFFFF, 0x02#8), (0x0000, 0x01#8)]).read addr :=
  ⟨by decide, fun _ => rfl⟩

/-- Each clause: an undefined byte, a defined one (0xE8 among them) at the last address, and a write at the
opcode, at the first operand byte and at the last one, which wraps to 0x0000. -/
theorem witness_NextFetchSeesAHostWrite :
    faultWitness.mem.wf = true ∧ 0xEA#8 ∉ definedOpcodes ∧ 0xE8#8 ∈ definedOpcodes ∧
    decode (hostWrite 0xFFFF#16 0xE8#8 faultWitness).codeBytes = .ok .inx [0x00#8, 0x00#8] ∧
    decode (hostWrite 0xFFFF#16 0x34#8 (start 0xFFFE [0xAD#8] [])).codeBytes = .ok (.ldaAbs 0x0034#16) [] ∧
    decode (hostWrite 0x0000#16 0x12#8 (start 0xFFFE [0xAD#8] [])).codeBytes = .ok (.ldaAbs 0x1200#16) [] ∧
    (start 0xFFFE [0xAD#8] []).mem.wf = true := by decide

/-- 0xE8 written over an undefined byte runs as INX. -/
theorem test_host_write_runs : view (seen .x) (step (hostWrite 0xFFFF#16 0xE8#8 faultWitness)) =
    some ⟨0x01#8, false, false, 0x0000#16, some 2, [0xFFFF#16]⟩ := by decide

theorem witness_StateAfterACallIsTheEngines : step faultWitness = .fault (.decodeFault 0xEA#8 0xFFFF#16) := rfl

/-- The invariant met by a state at power-on's SP and by one at reset's. -/
theorem witness_HostActionsKeepTheRunInvariant : faultWitness.RunInv ∧
    { faultWitness with sp := 0x00#8 }.RunInv :=
  ⟨⟨⟨rfl, rfl, rfl, rfl, rfl⟩, .inr rfl, by decide⟩, ⟨⟨rfl, rfl, rfl, rfl, rfl⟩, .inl rfl, by decide⟩⟩

theorem witness_StepKeepsTheInvariant : ldaWitness.Inv ∧ ∃ t, step ldaWitness = .next t :=
  ⟨{ mem_wf := by decide
     unused_flags := ⟨rfl, rfl, rfl, rfl, rfl⟩
     sp_reset := rfl
     reads_few := by decide
     reads_agree := fun _ h => nomatch h
     report_range := fun _ h => nomatch h }, ⟨_, rfl⟩⟩

theorem witness_SelfJumpLoopsForever :
    (start 0x0200 [0x4C#8, 0x00#8, 0x02#8] []).mem.read 0x0200#16 = 0x4C#8 ∧
    (start 0x0200 [0x4C#8, 0x00#8, 0x02#8] []).mem.read (0x0200#16 + 1#16) = loByte 0x0200#16 ∧
    (start 0x0200 [0x4C#8, 0x00#8, 0x02#8] []).mem.read (0x0200#16 + 2#16) = hiByte 0x0200#16 := by decide

theorem witness_BudgetIsDebitedByTheReportedCount :
    (∃ t, step ldaWitness = .next t) ∧ ∃ f, step faultWitness = .fault f :=
  ⟨⟨_, rfl⟩, ⟨_, rfl⟩⟩

end Sys2Proof.Tests
end

section
/-! How a completed meaning leaves the flags (10_state.md R29 to R31). -/

namespace Sys2Proof.Machine

/-- Everything a meaning does, said once: a load or an increment gives one byte to its destination and to
SetZN (10_state.md R30), a jump sets PC (43_jumps.md R142), and before either only data reads are
recorded. -/
theorem exec_cases (i : Instr) (s : State) :
    (∃ r v crossed reads, destination i = some r ∧
      exec i s = .next (retire i.opcode crossed (setZN v (writeReg r v { s with reads := reads })))) ∨
    (∃ target reads, destination i = none ∧
      exec i s = .next (retire i.opcode false (writePc target { s with reads := reads }))) := by
  cases i
  case jmpAbs | jmpInd => exact .inr ⟨_, _, rfl, rfl⟩
  all_goals exact .inl ⟨_, _, _, _, rfl, rfl⟩

@[simp] theorem readReg_retire {r : Reg} {op : Byte} {crossed : Bool} {s : State} :
    readReg r (retire op crossed s) = readReg r s := by cases r <;> rfl

@[simp] theorem readReg_setZN {r : Reg} {v : Byte} {s : State} :
    readReg r (setZN v s) = readReg r s := by cases r <;> rfl

/-- Bit 7 of a byte in numbers: the byte is at least 128. -/
theorem getElem_seven_eq_decide (v : Byte) : v[7] = decide (128 ≤ v.toNat) :=
  (BitVec.msb_eq_getLsbD_last v).symm.trans (BitVec.msb_eq_decide v)

/-- Settles O20, by the two shapes of `exec_cases`: what SetZN was given is what the register reads back,
and a jump reaches no flag. -/
theorem flagsFollowTheResult : Obligations.FlagsFollowTheResult := by
  intro i s t h
  obtain ⟨r, v, crossed, reads, hd, he⟩ | ⟨target, reads, hd, he⟩ := exec_cases i s
  · cases he.symm.trans h
    simp [hd, readReg_writeReg, getElem_seven_eq_decide]
  · cases he.symm.trans h
    simp [hd]

end Sys2Proof.Machine
end

section
/-! The wrapped sum and its page crossing (41_addressing_modes.md R101). -/

namespace Sys2Proof.Machine

/-- The indexed address is the sum modulo 2^16 (41_addressing_modes.md R101). -/
theorem indexedAddr_toNat (base : Addr) (index : Byte) :
    (indexedAddr base index).toNat = (base.toNat + index.toNat) % 65536 := by
  rw [indexedAddr, BitVec.toNat_add, zext16_toNat]

/-- Two addresses have one high byte exactly when they lie in one page of 256 bytes (00_scope.md R8). -/
theorem hiByte_eq_iff {w w' : Addr} : hiByte w = hiByte w' ↔ w.toNat / 256 = w'.toNat / 256 := by
  rw [← BitVec.toNat_inj, hiByte_toNat, hiByte_toNat]

/-- An indexed access crosses exactly when the wrapped sum lies in another page than its base
(41_addressing_modes.md R101). -/
theorem pageCrossed_iff (base : Addr) (index : Byte) :
    pageCrossed base index = true ↔ (indexedAddr base index).toNat / 256 ≠ base.toNat / 256 :=
  bne_iff_ne.trans hiByte_eq_iff.not

@[simp] theorem resolveZpIndexed_crossed {b : Byte} {r : Reg} {s : State} :
    (resolveZpIndexed b r s).crossed = false := rfl

/-- Settles O22, one clause from each lemma above: the wrapped sum, the high bytes compared on it, and
the zero-page modes, which wrap within their page. -/
theorem pageCrossingComparesHighBytes : Obligations.PageCrossingComparesHighBytes :=
  fun base index _ _ _ =>
    ⟨indexedAddr_toNat base index, pageCrossed_iff base index, resolveZpIndexed_crossed⟩

end Sys2Proof.Machine
end

section
/-! The frame of the jumps (43_jumps.md R142). -/

namespace Sys2Proof.Machine

/-- The jumps are exactly the instructions without a destination register (10_state.md R31). -/
theorem destination_eq_none_iff {i : Instr} : destination i = none ↔ i.operation = .jmp := by
  unfold destination
  cases i.operation <;> simp

/-- A jump completes with PC set, nothing but data reads recorded before it, and its count reported
(43_jumps.md R140, R141). -/
theorem exec_of_operation_jmp {i : Instr} (s : State) (h : i.operation = .jmp) :
    ∃ target reads,
      exec i s = .next (retire i.opcode false (writePc target { s with reads := reads })) := by
  obtain ⟨r, _, _, _, hdest, _⟩ | ⟨target, reads, _, hexec⟩ := exec_cases i s
  · cases hdest.symm.trans (destination_eq_none_iff.mpr h)
  · exact ⟨target, reads, hexec⟩

/-- Settles O18: the state a jump completes in differs from the one before only by PC, the recorded
reads and the reported count. -/
theorem jumpsChangeOnlyPc : Obligations.JumpsChangeOnlyPc := by
  intro i s h
  obtain ⟨target, reads, hexec⟩ := exec_of_operation_jmp s h
  exact ⟨_, hexec, by simp⟩

end Sys2Proof.Machine
end

section
/-! The frame of the increments (44_increments.md R152). -/

namespace Sys2Proof.Machine

/-- What an increment of any register leaves unchanged, said once for INX and INY (44_increments.md
R152). -/
theorem increment_frame (r : Reg) (op : Byte) (s : State) :
    ∃ t, increment r op s = .next t ∧ (∀ r', r' ≠ r → readReg r' t = readReg r' s) ∧ t.sp = s.sp ∧
      t.flags = { s.flags with z := t.flags.z, n := t.flags.n } ∧ t.reads = s.reads ∧
      ∀ addr, t.mem.read addr = s.mem.read addr := by
  refine ⟨_, increment_eq r op s, fun r' hne => ?_, by simp⟩
  rw [readReg_retire, readReg_setZN, readReg_writeReg, if_neg hne]

/-- Settles O19, once from the frame of an increment for each of INX and INY. -/
theorem incrementsChangeOnlyTheirRegister : Obligations.IncrementsChangeOnlyTheirRegister := by
  intro s
  obtain ⟨t, hInx, hReg, hRest⟩ := increment_frame .x Instr.inx.opcode s
  obtain ⟨u, hIny, hReg', hRest'⟩ := increment_frame .y Instr.iny.opcode s
  exact ⟨⟨t, hInx, hReg .a nofun, hReg .y nofun, hRest⟩,
    ⟨u, hIny, hReg' .a nofun, hReg' .x nofun, hRest'⟩⟩

end Sys2Proof.Machine
end

section
/-! The decoder and the encoder are inverse (30_encoding.md R60 to R68). -/

namespace Sys2Proof

/-- Every instruction is of a pair of the opcode map (30_encoding.md R66). -/
theorem Instr.wf_eq_true (i : Instr) : i.wf = true := by cases i <;> rfl

/-- An instruction's length is its opcode byte and its operand bytes (30_encoding.md R61). -/
theorem Instr.length_eq_add_operands (i : Instr) : i.length = 1 + i.operands.length := by
  cases i <;> rfl

@[simp] theorem encode_length (i : Instr) : (encode i).length = i.length := by
  rw [Instr.length_eq_add_operands, encode, List.length_cons, Nat.add_comm]

/-- The length of an instruction is read off its opcode byte (30_encoding.md R64). -/
theorem Instr.length_eq_add_operandBytes (i : Instr) : i.length = 1 + operandBytes i.opcode := by
  rw [operandBytes_opcode, Instr.length_eq_add_operands]

/-! ### The opcode map -/

/-- An opcode byte has an entry exactly when it is one of the 22 (30_encoding.md R66). -/
theorem opTable_isSome_iff : ∀ op : Byte, (opTable op).isSome ↔ op ∈ Machine.definedOpcodes := by
  decide

theorem opTable_eq_none {op : Byte} (h : op ∉ Machine.definedOpcodes) : opTable op = none :=
  Option.not_isSome_iff_eq_none.mp (mt (opTable_isSome_iff op).mp h)

theorem opTable_eq_some {op : Byte} (h : op ∈ Machine.definedOpcodes) : ∃ d, opTable op = some d :=
  Option.isSome_iff_exists.mp ((opTable_isSome_iff op).mpr h)

/-- An instruction's opcode byte is one of the 22. -/
theorem opcode_mem_definedOpcodes (i : Instr) : i.opcode ∈ Machine.definedOpcodes := by
  obtain ⟨d, hd, -, -⟩ := opTable_opcode i
  exact (opTable_isSome_iff _).mp (Option.isSome_iff_exists.mpr ⟨d, hd⟩)

theorem mem_opRows_of_opTable {op : Byte} {d : Descriptor} (h : opTable op = some d) :
    (op, d) ∈ opRows := by
  obtain ⟨before, after, heq, -⟩ := List.lookup_eq_some_iff.mp h
  exact heq ▸ List.mem_append_right before (List.mem_cons_self ..)

/-- No pair of operation and mode has two opcode bytes (30_encoding.md R66). -/
theorem opRows_pair_injective : ∀ r ∈ opRows, ∀ r' ∈ opRows,
    r.2.operation = r'.2.operation → r.2.mode = r'.2.mode → r.1 = r'.1 := by
  decide

/-- The opcode byte of an entry is that of every instruction of its pair. -/
theorem eq_opcode_of_opTable {op : Byte} {d : Descriptor} {i : Instr} (h : opTable op = some d)
    (hop : d.operation = i.operation) (hmode : d.mode = i.mode) : op = i.opcode := by
  obtain ⟨d', hd', hop', hmode'⟩ := opTable_opcode i
  exact opRows_pair_injective _ (mem_opRows_of_opTable h) _ (mem_opRows_of_opTable hd')
    (hop.trans hop'.symm) (hmode.trans hmode'.symm)

/-! ### The operand bytes -/

/-- A pair of the map builds an instruction from any operand bytes: no value is illegal
(30_encoding.md R68). -/
theorem build_of_pairExists {o : Operation} {m : Mode} (h : pairExists o m = true) (lo hi : Byte) :
    ∃ i, build o m lo hi = some i := by
  cases o <;> cases m <;> simp_all [pairExists, build]

/-- What is built has the pair it was built for, and the bytes it was built from as its operands. -/
theorem build_eq_some {o : Operation} {m : Mode} {lo hi : Byte} {i : Instr}
    (h : build o m lo hi = some i) :
    i.operation = o ∧ i.mode = m ∧ i.operands = [lo, hi].take (operandCount m) := by
  unfold build at h
  split at h <;> cases h <;> simp [Instr.operation, Instr.mode, Instr.operands, operandCount]

/-- An instruction's own operand bytes decode to it, whatever follows. -/
theorem decodeOperands_operands (i : Instr) (op : Byte) {d : Descriptor} (rest : List Byte)
    (hop : d.operation = i.operation) (hmode : d.mode = i.mode) :
    decodeOperands op d (i.operands ++ rest) = .ok i rest := by
  cases i <;>
    simp [decodeOperands, hop, hmode, Instr.operation, Instr.mode, Instr.operands, operandCount, build]

/-- Operand bytes that decode are the instruction's own and the rest, and its pair is the entry's. -/
theorem decodeOperands_eq_ok {op : Byte} {d : Descriptor} {bytes rest : List Byte} {i : Instr}
    (h : decodeOperands op d bytes = .ok i rest) :
    i.operation = d.operation ∧ i.mode = d.mode ∧ bytes = i.operands ++ rest := by
  unfold decodeOperands at h
  split at h
  case h_4 => cases h
  all_goals
    split at h <;> cases h
    obtain ⟨hop, hmode, hbytes⟩ := build_eq_some ‹_›
    simp_all

/-- With two bytes or more after its opcode byte, an entry of the map always decodes. -/
theorem decodeOperands_of_wf (op : Byte) {d : Descriptor} (h : d.wf = true) (b1 b2 : Byte)
    (rest : List Byte) : ∃ i r, decodeOperands op d (b1 :: b2 :: rest) = .ok i r := by
  have hpair : pairExists d.operation d.mode = true := (Bool.and_eq_true_iff.mp h).1
  obtain ⟨i, hi⟩ := build_of_pairExists hpair b1 b2
  obtain ⟨hop, hmode, hbytes⟩ := build_eq_some hi
  refine ⟨i, [b1, b2].drop (operandCount d.mode) ++ rest, ?_⟩
  have := decodeOperands_operands i op ([b1, b2].drop (operandCount d.mode) ++ rest) hop.symm hmode.symm
  rwa [hbytes, ← List.append_assoc, List.take_append_drop] at this

/-! ### Whole instructions -/

theorem decode_cons_some {op : Byte} {d : Descriptor} (h : opTable op = some d) (bytes : List Byte) :
    decode (op :: bytes) = decodeOperands op d bytes := by
  simp only [decode, h]

theorem decode_cons_none {op : Byte} (h : opTable op = none) (bytes : List Byte) :
    decode (op :: bytes) = .undefinedOpcode op := by
  simp only [decode, h]

theorem decode_encode_append (i : Instr) (rest : List Byte) :
    decode (encode i ++ rest) = .ok i rest := by
  obtain ⟨d, hd, hop, hmode⟩ := opTable_opcode i
  exact (decode_cons_some hd _).trans (decodeOperands_operands i _ rest hop hmode)

theorem eq_encode_append_of_decode {bytes rest : List Byte} {i : Instr}
    (h : decode bytes = .ok i rest) : bytes = encode i ++ rest := by
  cases bytes with
  | nil => cases h
  | cons op bytes =>
    cases hd : opTable op with
    | none => cases (decode_cons_none hd bytes).symm.trans h
    | some d =>
      obtain ⟨hop, hmode, hbytes⟩ := decodeOperands_eq_ok ((decode_cons_some hd bytes).symm.trans h)
      rw [hbytes, eq_opcode_of_opTable hd hop.symm hmode.symm, encode, List.cons_append]

/-- Decoding, said once in both directions: the bytes are the encoding and the rest. -/
theorem decode_eq_ok_iff {bytes rest : List Byte} {i : Instr} :
    decode bytes = .ok i rest ↔ bytes = encode i ++ rest :=
  ⟨eq_encode_append_of_decode, fun h => h ▸ decode_encode_append i rest⟩

/-- The first of the bytes an instruction decoded from is its opcode byte, the next its operands. -/
theorem decode_cons_eq_ok_iff {op : Byte} {bytes rest : List Byte} {i : Instr} :
    decode (op :: bytes) = .ok i rest ↔ op = i.opcode ∧ bytes = i.operands ++ rest := by
  rw [decode_eq_ok_iff, encode, List.cons_append, List.cons.injEq]

/-- Any byte of the 22 with two bytes or more after it decodes. -/
theorem decode_of_mem_definedOpcodes {op : Byte} (h : op ∈ Machine.definedOpcodes) (b1 b2 : Byte)
    (rest : List Byte) : ∃ i r, decode (op :: b1 :: b2 :: rest) = .ok i r := by
  obtain ⟨d, hd⟩ := opTable_eq_some h
  rw [decode_cons_some hd]
  exact decodeOperands_of_wf op (opTable_wf op d hd) b1 b2 rest

/-! ### The obligations about decoding -/

/-- Settles O1, from the opcode's row and the operand bytes read back (`decode_encode_append`). -/
theorem encodeThenDecode : Obligations.EncodeThenDecode :=
  fun i rest _ => decode_encode_append i rest

/-- Settles O2, by the other direction of `decode_eq_ok_iff`. -/
theorem decodeThenEncode : Obligations.DecodeThenEncode :=
  fun _ _ i h => ⟨i.wf_eq_true, eq_encode_append_of_decode h⟩

/-- Settles O3: an undefined byte has no row, and a row always decodes. -/
theorem decoderAcceptsExactlyTheOpcodeMap : Obligations.DecoderAcceptsExactlyTheOpcodeMap := by
  refine fun op b1 b2 rest => ⟨fun h => decode_cons_none (opTable_eq_none h) _, fun h => ?_⟩
  obtain ⟨i, r, hdec⟩ := decode_of_mem_definedOpcodes h b1 b2 rest
  exact ⟨i, r, hdec, (decode_cons_eq_ok_iff.mp hdec).1.symm⟩

/-- Settles O4: both lengths are the one the opcode byte's row gives. -/
theorem lengthFollowsFromOpcode : Obligations.LengthFollowsFromOpcode := by
  intro op xs ys rx ry i j hi hj
  obtain ⟨hopi, hxs⟩ := decode_cons_eq_ok_iff.mp hi
  obtain ⟨hopj, -⟩ := decode_cons_eq_ok_iff.mp hj
  constructor
  · rw [i.length_eq_add_operandBytes, j.length_eq_add_operandBytes, ← hopi, ← hopj]
  · rw [hxs, i.length_eq_add_operands, List.length_append]
    omega

/-- Settles O5: the table is finite, and each clause is read off it (30_encoding.md R66, R67). -/
theorem opcodeMapIsWellFormed : Obligations.OpcodeMapIsWellFormed := by
  refine ⟨rfl, ?_, ?_⟩ <;> decide

/-- Settles O6: the words are closed bytes, and the decoder runs on each. -/
theorem encodingsReadAsWritten : Obligations.EncodingsReadAsWritten := by
  unfold Obligations.EncodingsReadAsWritten
  decide

end Sys2Proof
end

section
/-! What each instruction completes in, in the numbers of the spec's own formulas (42_loads.md,
43_jumps.md, 44_increments.md). -/

namespace Sys2Proof.Machine

/-! ### The cycle count (40_execute_engine.md R90, R93) -/

@[simp] theorem cyclesOf_false {base : Byte → Nat} {op : Byte} : cyclesOf base op false = base op := by
  simp [cyclesOf]

theorem cyclesOf_of_charges {base : Byte → Nat} {op : Byte} (h : chargesCrossing op = true)
    (crossed : Bool) : cyclesOf base op crossed = base op + if crossed then 1 else 0 := by
  simp [cyclesOf, h, Config.pageCrossPenalty]

theorem cyclesOf_pageCrossed {base : Byte → Nat} {op : Byte} (h : chargesCrossing op = true)
    (w : Addr) (index : Byte) :
    cyclesOf base op (pageCrossed w index) =
      base op + if (w.toNat + index.toNat) % 65536 / 256 = w.toNat / 256 then 0 else 1 := by
  rw [cyclesOf_of_charges h]
  simp only [pageCrossed_iff, indexedAddr_toNat, ite_not]

/-! ### Loads (42_loads.md R138) -/

theorem beq_zero_eq_decide (v : Byte) : (v == 0x00#8) = decide (v.toNat = 0) := by
  rw [Bool.eq_iff_iff, beq_iff_eq, decide_eq_true_iff, ← BitVec.toNat_inj]
  rfl

/-- Writing the result, SetZN of it and the count, after some data reads, is `State.loaded`. -/
theorem retire_setZN_writeReg (r : Reg) (op : Byte) (crossed : Bool) (v : Byte) (s : State)
    (data : List BusRead) :
    retire op crossed (setZN v (writeReg r v { s with reads := s.reads ++ data })) =
      s.loaded r v data (cyclesOf cycleBase op crossed) := by
  cases r <;>
    simp [retire, setZN, writeReg, State.loaded, beq_zero_eq_decide, getElem_seven_eq_decide]

theorem load_immediate (r : Reg) (op v : Byte) (s : State) :
    load r op (immediate v s) = .next (s.loaded r v [] (cycleBase op)) := by
  have h := retire_setZN_writeReg r op false v s []
  rw [List.append_nil, cyclesOf_false] at h
  exact congrArg _ h

/-- A load through a resolver: its pointer reads, then the one data read at the address it yields
(41_addressing_modes.md R113). -/
theorem load_readAt {res : Resolution} {s : State} {ptr : List BusRead} {ea : Nat} (r : Reg) (op : Byte)
    (hstate : res.state = { s with reads := s.reads ++ ptr }) (hea : res.ea = BitVec.ofNat 16 ea) :
    load r op (readAt res) =
      .next (s.loaded r (s.byteAt ea) (ptr ++ [s.readOf ea]) (cyclesOf cycleBase op res.crossed)) := by
  rw [load_eq, readAt_eq, hstate, hea, ← retire_setZN_writeReg, ← List.append_assoc]
  rfl

/-- The same for a resolver that reads no pointer. -/
theorem load_readAt_direct {res : Resolution} {s : State} {ea : Nat} (r : Reg) (op : Byte)
    (hstate : res.state = s) (hea : res.ea = BitVec.ofNat 16 ea) :
    load r op (readAt res) =
      .next (s.loaded r (s.byteAt ea) [s.readOf ea] (cyclesOf cycleBase op res.crossed)) :=
  load_readAt (ptr := []) r op (by rw [hstate, List.append_nil]) hea

theorem load_resolveZp (r : Reg) (op b : Byte) (s : State) :
    load r op (readAt (resolveZp b s)) =
      .next (s.loaded r (s.byteAt b.toNat) [s.readOf b.toNat] (cycleBase op)) := by
  rw [load_readAt_direct r op rfl (zext16_eq_ofNat b)]
  simp only [resolveZp, cyclesOf_false]

theorem load_resolveZpIndexed (r index : Reg) (op b : Byte) (s : State) :
    load r op (readAt (resolveZpIndexed b index s)) =
      let ea := (b.toNat + (readReg index s).toNat) % 256
      .next (s.loaded r (s.byteAt ea) [s.readOf ea] (cycleBase op)) := by
  have hea := zext16_eq_ofNat (b + readReg index s)
  rw [BitVec.toNat_add] at hea
  rw [load_readAt_direct r op rfl hea]
  simp only [resolveZpIndexed_crossed, cyclesOf_false]
  rfl

theorem load_resolveAbs (r : Reg) (op : Byte) (w : Addr) (s : State) :
    load r op (readAt (resolveAbs w s)) =
      .next (s.loaded r (s.byteAt w.toNat) [s.readOf w.toNat] (cycleBase op)) := by
  have hea : w = BitVec.ofNat 16 w.toNat := by simp
  rw [load_readAt_direct r op rfl hea]
  simp only [resolveAbs, cyclesOf_false]

theorem load_resolveAbsIndexed (r index : Reg) {op : Byte} (h : chargesCrossing op = true) (w : Addr)
    (s : State) :
    load r op (readAt (resolveAbsIndexed w index s)) =
      let ea := (w.toNat + (readReg index s).toNat) % 65536
      .next (s.loaded r (s.byteAt ea) [s.readOf ea]
        (cycleBase op + if ea / 256 = w.toNat / 256 then 0 else 1)) := by
  rw [load_readAt_direct r op rfl (indexedAddr_eq_ofNat w _)]
  simp only [resolveAbsIndexed, cyclesOf_pageCrossed h]

/-! ### Pointers (41_addressing_modes.md R111; 43_jumps.md R141) -/

theorem zpPointer_lt (s : State) (p : Nat) : s.zpPointer p < 65536 := by
  have := (s.byteAt ((p + 1) % 256)).isLt
  have := (s.byteAt p).isLt
  unfold State.zpPointer
  omega

/-- ReadPtrZP in numbers: the pointer, and its two reads in order. -/
theorem readPtrZp_eq_zpPointer (p : Byte) (s : State) :
    readPtrZp p s = (BitVec.ofNat 16 (s.zpPointer p.toNat),
      { s with reads := s.reads ++ [s.readOf p.toNat, s.readOf ((p.toNat + 1) % 256)] }) := by
  have hnext := zext16_eq_ofNat (p + 1#8)
  rw [BitVec.toNat_add] at hnext
  rw [readPtrZp_eq, join_eq_ofNat, zext16_eq_ofNat p, hnext, List.append_assoc]
  rfl

theorem load_resolveIndX (r : Reg) (op b : Byte) (s : State) :
    load r op (readAt (resolveIndX b s)) =
      let p := (b.toNat + s.x.toNat) % 256
      .next (s.loaded r (s.byteAt (s.zpPointer p))
        [s.readOf p, s.readOf ((p + 1) % 256), s.readOf (s.zpPointer p)] (cycleBase op)) := by
  have hptr := readPtrZp_eq_zpPointer (b + s.x) s
  rw [BitVec.toNat_add] at hptr
  rw [load_readAt r op (congrArg Prod.snd hptr) (congrArg Prod.fst hptr)]
  simp only [resolveIndX, cyclesOf_false, List.cons_append, List.nil_append]

theorem load_resolveIndY (r : Reg) {op : Byte} (h : chargesCrossing op = true) (b : Byte) (s : State) :
    load r op (readAt (resolveIndY b s)) =
      let ea := (s.zpPointer b.toNat + s.y.toNat) % 65536
      .next (s.loaded r (s.byteAt ea)
        [s.readOf b.toNat, s.readOf ((b.toNat + 1) % 256), s.readOf ea]
        (cycleBase op + if ea / 256 = s.zpPointer b.toNat / 256 then 0 else 1)) := by
  have hptr := readPtrZp_eq_zpPointer b s
  have hbase : (readPtrZp b s).1.toNat = s.zpPointer b.toNat := by
    rw [hptr, BitVec.toNat_ofNat, Nat.mod_eq_of_lt (zpPointer_lt s _)]
  rw [load_readAt r op (congrArg Prod.snd hptr) (indexedAddr_eq_ofNat _ _)]
  simp only [resolveIndY, cyclesOf_pageCrossed h, hbase, readReg_y, List.cons_append, List.nil_append]

/-- The address of a jump target's high byte stays in the pointer's page (43_jumps.md R141). -/
theorem join_hiByte_loByte_add_one (ptr : Addr) :
    join (hiByte ptr) (loByte ptr + 1#8) =
      BitVec.ofNat 16 (256 * (ptr.toNat / 256) + (ptr.toNat % 256 + 1) % 256) := by
  rw [join_eq_ofNat, BitVec.toNat_add, hiByte_toNat, loByte_toNat]
  rfl

/-! ### The completion of each shape -/

/-- Settles O7, by `load_immediate` at each register. -/
theorem immediateLoadsComplete : Obligations.ImmediateLoadsComplete :=
  fun v s => ⟨load_immediate .a _ v s, load_immediate .x _ v s, load_immediate .y _ v s⟩

/-- Settles O8, by `load_resolveZp` at each register. -/
theorem zeroPageLoadsComplete : Obligations.ZeroPageLoadsComplete :=
  fun b s => ⟨load_resolveZp .a _ b s, load_resolveZp .x _ b s, load_resolveZp .y _ b s⟩

/-- Settles O9, by `load_resolveZpIndexed` at each register and its index. -/
theorem zeroPageIndexedLoadsComplete : Obligations.ZeroPageIndexedLoadsComplete :=
  fun b s => ⟨load_resolveZpIndexed .a .x _ b s, load_resolveZpIndexed .x .y _ b s,
    load_resolveZpIndexed .y .x _ b s⟩

/-- Settles O10, by `load_resolveAbs` at each register. -/
theorem absoluteLoadsComplete : Obligations.AbsoluteLoadsComplete :=
  fun w s => ⟨load_resolveAbs .a _ w s, load_resolveAbs .x _ w s, load_resolveAbs .y _ w s⟩

/-- Settles O11, by `load_resolveAbsIndexed`: all four opcodes have the page-cross flag. -/
theorem absoluteIndexedLoadsComplete : Obligations.AbsoluteIndexedLoadsComplete :=
  fun w s => ⟨load_resolveAbsIndexed .a .x rfl w s, load_resolveAbsIndexed .a .y rfl w s,
    load_resolveAbsIndexed .x .y rfl w s, load_resolveAbsIndexed .y .x rfl w s⟩

/-- Settles O12, by the pointer in numbers. -/
theorem indirectXLoadCompletes : Obligations.IndirectXLoadCompletes :=
  fun b s => load_resolveIndX .a _ b s

/-- Settles O13, by the pointer in numbers and the crossing of the sum onto it. -/
theorem indirectYLoadCompletes : Obligations.IndirectYLoadCompletes :=
  fun b s => load_resolveIndY .a rfl b s

/-- Settles O14: the operand is the target, and no crossing is charged. -/
theorem jumpAbsoluteCompletes : Obligations.JumpAbsoluteCompletes :=
  fun _ _ => rfl

/-- Settles O15, with the high byte's address in numbers. -/
theorem jumpIndirectCompletes : Obligations.JumpIndirectCompletes := by
  intro ptr s
  change Host.Outcome.next (retire _ false (writePc (readJumpTarget ptr s).1 (readJumpTarget ptr s).2)) = _
  rw [readJumpTarget_eq, join_hiByte_loByte_add_one, join_eq_ofNat, List.append_assoc]
  simp [retire, writePc, State.byteAt, State.readOf, Instr.opcode]

/-- An increment completes as a load of the register plus one does, without a data read. -/
theorem increment_eq_loaded (r : Reg) (op : Byte) (s : State) :
    increment r op s = .next
      (s.loaded r (BitVec.ofNat 8 (((readReg r s).toNat + 1) % 256)) [] (cycleBase op)) := by
  have hv : readReg r s + 1#8 = BitVec.ofNat 8 (((readReg r s).toNat + 1) % 256) := by
    apply BitVec.eq_of_toNat_eq
    simp [BitVec.toNat_add]
  rw [increment_eq, hv, ← load_immediate]
  rfl

/-- Settles O16, by `increment_eq_loaded` at each register. -/
theorem incrementsComplete : Obligations.IncrementsComplete :=
  fun s => ⟨increment_eq_loaded .x _ s, increment_eq_loaded .y _ s⟩

end Sys2Proof.Machine
end

section
/-! One formula for the state an instruction completes in, in the numbers of the spec's formulas; what
a step reads, writes and keeps is then read off it. -/

namespace Sys2Proof.Machine

/-- The data and pointer reads of an instruction, in order (41_addressing_modes.md R109 to R113). -/
def dataReads (i : Instr) (s : State) : List BusRead := (dataAddresses i s).map s.readOf

/-- The count an instruction reports under the default CYCLE_BASE (40_execute_engine.md R90, R93). -/
def stepCycles (i : Instr) (s : State) : Nat := cycleBase i.opcode + if crossesPage i s then 1 else 0

/-- The byte a load or an increment leaves in its register (42_loads.md R138; 44_increments.md R150,
R151). -/
def resultByte : Instr → State → Byte
  | .inx, s => BitVec.ofNat 8 ((s.x.toNat + 1) % 256)
  | .iny, s => BitVec.ofNat 8 ((s.y.toNat + 1) % 256)
  | i, s => (loadedByte i s).getD 0x00#8

/-- Where an instruction leaves PC, once its bytes are fetched (43_jumps.md R140, R141). -/
def nextPc : Instr → State → Addr
  | .jmpAbs w, _ => w
  | .jmpInd w, s =>
    BitVec.ofNat 16 (256 * (s.byteAt (256 * (w.toNat / 256) + (w.toNat % 256 + 1) % 256)).toNat +
      (s.byteAt w.toNat).toNat)
  | _, s => s.pc

/-- The state an instruction completes in; `exec_eq_completed` ties it to the meanings. -/
def completed (i : Instr) (s : State) : State :=
  match destination i with
  | some r => s.loaded r (resultByte i s) (dataReads i s) (stepCycles i s)
  | none =>
    { s with pc := nextPc i s, reads := s.reads ++ dataReads i s, report := some (stepCycles i s) }

theorem completed_of_destination {i : Instr} {r : Reg} (h : destination i = some r) (s : State) :
    completed i s = s.loaded r (resultByte i s) (dataReads i s) (stepCycles i s) := by
  simp only [completed, h]

theorem completed_of_jump {i : Instr} (h : destination i = none) (s : State) :
    completed i s =
      { s with pc := nextPc i s, reads := s.reads ++ dataReads i s, report := some (stepCycles i s) } := by
  simp only [completed, h]

theorem stepCycles_of_indexedBase {i : Instr} {s : State} {base : Nat} {index : Byte}
    (h : indexedBase i s = some (base, index)) :
    stepCycles i s =
      cycleBase i.opcode + if (base + index.toNat) % 65536 / 256 = base / 256 then 0 else 1 := by
  simp [stepCycles, crossesPage, h]

/-- Every instruction completes, from every state, in the state of the formula: its meaning's resolver
lemma, one a constructor. -/
theorem exec_eq_completed (i : Instr) (s : State) : exec i s = .next (completed i s) := by
  cases i with
  | ldaImm v => exact load_immediate .a _ v s
  | ldxImm v => exact load_immediate .x _ v s
  | ldyImm v => exact load_immediate .y _ v s
  | ldaZp b => exact load_resolveZp .a _ b s
  | ldxZp b => exact load_resolveZp .x _ b s
  | ldyZp b => exact load_resolveZp .y _ b s
  | ldaZpX b => exact load_resolveZpIndexed .a .x _ b s
  | ldxZpY b => exact load_resolveZpIndexed .x .y _ b s
  | ldyZpX b => exact load_resolveZpIndexed .y .x _ b s
  | ldaAbs w => exact load_resolveAbs .a _ w s
  | ldxAbs w => exact load_resolveAbs .x _ w s
  | ldyAbs w => exact load_resolveAbs .y _ w s
  | ldaAbsX w =>
    rw [completed_of_destination rfl, stepCycles_of_indexedBase rfl]
    exact load_resolveAbsIndexed .a .x rfl w s
  | ldaAbsY w =>
    rw [completed_of_destination rfl, stepCycles_of_indexedBase rfl]
    exact load_resolveAbsIndexed .a .y rfl w s
  | ldxAbsY w =>
    rw [completed_of_destination rfl, stepCycles_of_indexedBase rfl]
    exact load_resolveAbsIndexed .x .y rfl w s
  | ldyAbsX w =>
    rw [completed_of_destination rfl, stepCycles_of_indexedBase rfl]
    exact load_resolveAbsIndexed .y .x rfl w s
  | ldaIndX b => exact load_resolveIndX .a _ b s
  | ldaIndY b =>
    rw [completed_of_destination rfl, stepCycles_of_indexedBase rfl]
    exact load_resolveIndY .a rfl b s
  | jmpAbs w =>
    have hreads : s.reads ++ dataReads (.jmpAbs w) s = s.reads := List.append_nil _
    rw [completed_of_jump rfl, hreads]
    exact jumpAbsoluteCompletes w s
  | jmpInd w => exact jumpIndirectCompletes w s
  | inx => exact increment_eq_loaded .x _ s
  | iny => exact increment_eq_loaded .y _ s

/-! ### The fields of the completed state -/

@[simp] theorem completed_mem {i : Instr} {s : State} : (completed i s).mem = s.mem := by
  unfold completed; split <;> rfl

@[simp] theorem completed_sp {i : Instr} {s : State} : (completed i s).sp = s.sp := by
  unfold completed; split <;> rfl

@[simp] theorem completed_reads {i : Instr} {s : State} :
    (completed i s).reads = s.reads ++ dataReads i s := by
  unfold completed; split <;> rfl

@[simp] theorem completed_report {i : Instr} {s : State} :
    (completed i s).report = some (stepCycles i s) := by
  unfold completed; split <;> rfl

/-- No instruction writes C, I, D, B or V (10_state.md R29). -/
theorem completed_flags_frame (i : Instr) (s : State) :
    (completed i s).flags =
      { s.flags with z := (completed i s).flags.z, n := (completed i s).flags.n } := by
  unfold completed; split <;> rfl

theorem completed_flags_of_jump {i : Instr} (h : destination i = none) (s : State) :
    (completed i s).flags = s.flags := by
  rw [completed_of_jump h]

@[simp] theorem readReg_loaded {r r' : Reg} {s : State} {v : Byte} {data : List BusRead} {n : Nat} :
    readReg r' (s.loaded r v data n) = if r' = r then v else readReg r' s := by
  cases r <;> cases r' <;> rfl

/-- Only a jump moves PC past the fetch (10_state.md R27, R28). -/
@[simp] theorem completed_pc {i : Instr} {s : State} : (completed i s).pc = nextPc i s := by
  cases i <;> rfl

/-- The destination holds the result, every other register its value (10_state.md R23 to R25). -/
theorem readReg_completed (i : Instr) (r : Reg) (s : State) :
    readReg r (completed i s) = if destination i = some r then resultByte i s else readReg r s := by
  cases hd : destination i with
  | none => rw [completed_of_jump hd]; cases r <;> rfl
  | some r' => rw [completed_of_destination hd, readReg_loaded]; cases r <;> cases r' <;> rfl

/-! ### What a meaning reads: X, Y, memory, and PC when it keeps it -/

section Agree

variable {s u : State} (hx : u.x = s.x) (hy : u.y = s.y) (hmem : u.mem = s.mem)
include hx hy hmem

theorem dataReads_congr (i : Instr) : dataReads i u = dataReads i s := by
  cases s; cases u; dsimp only at hx hy hmem; subst hx hy hmem
  cases i <;> rfl

theorem resultByte_congr (i : Instr) : resultByte i u = resultByte i s := by
  cases s; cases u; dsimp only at hx hy hmem; subst hx hy hmem
  cases i <;> rfl

theorem stepCycles_congr (i : Instr) : stepCycles i u = stepCycles i s := by
  cases s; cases u; dsimp only at hx hy hmem; subst hx hy hmem
  cases i <;> rfl

theorem nextPc_congr (hpc : u.pc = s.pc) (i : Instr) : nextPc i u = nextPc i s := by
  cases s; cases u; dsimp only at hx hy hmem hpc; subst hx hy hmem hpc
  cases i <;> rfl

theorem readReg_completed_congr (i : Instr) (r : Reg) (hr : readReg r u = readReg r s) :
    readReg r (completed i u) = readReg r (completed i s) := by
  rw [readReg_completed, readReg_completed, resultByte_congr hx hy hmem, hr]

/-- A is loaded alike, or kept in both (10_state.md R23). -/
theorem completed_a_alike_or_kept (i : Instr) :
    (completed i u).a = (completed i s).a ∨
      ((completed i s).a = s.a ∧ (completed i u).a = u.a) := by
  have hs := readReg_completed i .a s
  have hu := readReg_completed i .a u
  rw [resultByte_congr hx hy hmem] at hu
  by_cases hdest : destination i = some .a
  · rw [if_pos hdest] at hs hu
    exact .inl (hu.trans hs.symm)
  · rw [if_neg hdest] at hs hu
    exact .inr ⟨hs, hu⟩

/-- Z and N are set alike, or every flag is kept in both (10_state.md R30, R31). -/
theorem completed_flags_alike_or_kept (i : Instr) :
    ((completed i u).flags.z = (completed i s).flags.z ∧
      (completed i u).flags.n = (completed i s).flags.n) ∨
    ((completed i s).flags = s.flags ∧ (completed i u).flags = u.flags) := by
  cases hdest : destination i with
  | none => exact .inr ⟨completed_flags_of_jump hdest s, completed_flags_of_jump hdest u⟩
  | some r =>
    rw [completed_of_destination hdest, completed_of_destination hdest, resultByte_congr hx hy hmem]
    exact .inl ⟨rfl, rfl⟩

end Agree

/-! ### Loads and counts -/

theorem loadedByte_of_isLoad {i : Instr} (h : isLoad i = true) (s : State) :
    loadedByte i s = some (resultByte i s) := by
  cases i
  case jmpAbs | jmpInd | inx | iny => cases h
  all_goals rfl

/-- Settles O17: a load has a destination and a byte, and `State.loaded` says the rest. -/
theorem everyLoadObeysTheFamilyRule : Obligations.EveryLoadObeysTheFamilyRule := by
  intro i s h
  have hne : destination i ≠ none := fun hd => by
    simp [isLoad, destination_eq_none_iff.mp hd] at h
  obtain ⟨r, hr⟩ := Option.ne_none_iff_exists'.mp hne
  refine ⟨r, resultByte i s, completed i s, hr, loadedByte_of_isLoad h s, exec_eq_completed i s, ?_⟩
  rw [completed_of_destination hr]
  refine ⟨by simp, fun r' hne => by simp [hne], rfl, rfl, ?_, rfl, rfl, rfl, rfl, rfl, fun _ => rfl⟩
  simp [State.loaded, getElem_seven_eq_decide]

/-- The opcodes with the page-cross flag (30_encoding.md R67). -/
theorem chargesCrossing_iff_mem : ∀ op : Byte,
    chargesCrossing op = true ↔ op ∈ [0xBD#8, 0xB9#8, 0xB1#8, 0xBE#8, 0xBC#8] := by
  decide

/-- Only an instruction whose descriptor has the flag adds an index to a 16-bit base. -/
theorem chargesCrossing_of_crossesPage {i : Instr} {s : State} (h : crossesPage i s = true) :
    chargesCrossing i.opcode = true := by
  cases i
  case ldaAbsX | ldaAbsY | ldxAbsY | ldyAbsX | ldaIndY => rfl
  all_goals cases h

/-- Settles O21: the report is `stepCycles`, and only a flagged instruction crosses. -/
theorem pageCrossChargesOneCycle : Obligations.PageCrossChargesOneCycle := by
  intro i s
  refine ⟨chargesCrossing_iff_mem _, completed i s, exec_eq_completed i s, ?_⟩
  simp only [completed_report, stepCycles, and_iff_right_of_imp chargesCrossing_of_crossesPage]

/-- Settles O23, by the row of each of the 22 opcodes (40_execute_engine.md R92). -/
theorem defaultBaseCyclesOfEveryInstruction : Obligations.DefaultBaseCyclesOfEveryInstruction := by
  intro i
  cases i <;> rfl

/-- The default counts of the 22 opcodes are 2 to 6, a page crossing included (90_conflicts.md C8). -/
theorem cycleBase_bounds : ∀ op ∈ definedOpcodes,
    2 ≤ cycleBase op ∧ cycleBase op + (if chargesCrossing op then 1 else 0) ≤ 6 := by
  decide

theorem stepCycles_bounds (i : Instr) (s : State) : 2 ≤ stepCycles i s ∧ stepCycles i s ≤ 6 := by
  have hbase := cycleBase_bounds _ (opcode_mem_definedOpcodes i)
  unfold stepCycles
  by_cases hcross : crossesPage i s = true
  · rw [if_pos (chargesCrossing_of_crossesPage hcross)] at hbase
    rw [if_pos hcross]
    omega
  · rw [if_neg hcross]
    omega

end Sys2Proof.Machine
end

section
/-! What a step does, from every state: it fetches and runs the instruction at PC, or it faults
(40_execute_engine.md R82, R83; 60_exceptions.md R160). -/

namespace Sys2Proof.Machine

/-! ### The fetches -/

/-- The fetches of at most three bytes at the start of a step (40_execute_engine.md R83). -/
theorem fetchBytes_beginStep {n : Nat} (hn : n ≤ 3) (s : State) :
    fetchBytes n (beginStep s) = (s.codeBytes.take n,
      { s with pc := s.pc + BitVec.ofNat 16 n, reads := s.codeReads.take n, report := none }) := by
  have htwo : s.pc + 1#16 + 1#16 = s.pc + 2#16 := by rw [BitVec.add_assoc]; rfl
  have hthree : s.pc + 2#16 + 1#16 = s.pc + 3#16 := by rw [BitVec.add_assoc]; rfl
  interval_cases n <;>
    simp [fetchBytes, fetch8_eq, beginStep, State.codeBytes, State.codeReads, htwo, hthree]

/-- The bytes fetched decode, and the instruction runs in the state the fetches left. -/
theorem fetchInstr_of_decode {s t : State} {i : Instr} {bytes rest : List Byte} {n : Nat}
    (hn : operandBytes (s.mem.read s.pc) + 1 = n) (hfetch : fetchBytes n s = (bytes, t))
    (h : decode bytes = .ok i rest) : fetchInstr s = .instr i t := by
  obtain rfl : (fetchBytes n s).1 = bytes := congrArg Prod.fst hfetch
  obtain rfl : (fetchBytes n s).2 = t := congrArg Prod.snd hfetch
  subst hn
  unfold fetchInstr
  dsimp only
  split
  case h_1 heq => cases heq.symm.trans h; rfl
  case h_2 heq => cases heq.symm.trans h
  case h_3 heq => cases heq.symm.trans h

theorem fetchInstr_of_undefined {s : State} (h : s.mem.read s.pc ∉ definedOpcodes) :
    fetchInstr s = .undefined (s.mem.read s.pc) := by
  have hdec := decode_cons_none (opTable_eq_none h) (fetchBytes (operandBytes (fetch8 s).1) (fetch8 s).2).1
  unfold fetchInstr
  dsimp only
  split
  case h_1 heq => cases heq.symm.trans hdec
  case h_2 heq => cases heq.symm.trans hdec; rfl
  case h_3 heq => cases heq.symm.trans hdec

/-! ### The bytes at PC -/

section Decoded

variable {s : State} {i : Instr} {rest : List Byte} (h : decode s.codeBytes = .ok i rest)
include h

theorem opcode_of_decode : s.mem.read s.pc = i.opcode := (decode_cons_eq_ok_iff.mp h).1

/-- What a step fetches is the instruction's own encoding. -/
theorem take_codeBytes : s.codeBytes.take i.length = encode i := by
  rw [eq_encode_append_of_decode h, ← encode_length, List.take_left]

theorem length_le_three : i.length ≤ 3 := by
  have := congrArg List.length (eq_encode_append_of_decode h)
  rw [List.length_append, encode_length] at this
  simp [State.codeBytes] at this
  omega

/-- Fetching the instruction's own bytes ends in `State.afterFetch`. -/
theorem fetchBytes_length_beginStep :
    fetchBytes i.length (beginStep s) = (encode i, s.afterFetch i) := by
  rw [fetchBytes_beginStep (length_le_three h), take_codeBytes h]
  rfl

theorem fetchInstr_beginStep : fetchInstr (beginStep s) = .instr i (s.afterFetch i) := by
  have hlen : operandBytes (s.mem.read s.pc) + 1 = i.length := by
    rw [i.length_eq_add_operandBytes, opcode_of_decode h, Nat.add_comm]
  have hdec : decode (encode i) = .ok i [] := decode_eq_ok_iff.mpr (List.append_nil _).symm
  exact fetchInstr_of_decode hlen (fetchBytes_length_beginStep h) hdec

theorem step_of_decode : step s = exec i (s.afterFetch i) := by
  simp only [step, fetchInstr_beginStep h]

end Decoded

theorem step_of_undefined {s : State} (h : s.mem.read s.pc ∉ definedOpcodes) :
    step s = .fault (.decodeFault (s.mem.read s.pc) s.pc) := by
  simp only [step, fetchInstr_of_undefined (s := beginStep s) h]
  rfl

/-- Settles O24: the fetches are those of the instruction's bytes (`fetchInstr_beginStep`). -/
theorem stepRunsTheDecodedInstruction : Obligations.StepRunsTheDecodedInstruction :=
  fun _ _ _ h => step_of_decode h

/-- A step, said once: it completes the instruction at PC, or faults on a byte that is none. -/
theorem step_completes_or_faults (s : State) :
    (∃ i rest, decode s.codeBytes = .ok i rest ∧ s.mem.read s.pc ∈ definedOpcodes ∧
      step s = .next (completed i (s.afterFetch i))) ∨
    (s.mem.read s.pc ∉ definedOpcodes ∧ step s = .fault (.decodeFault (s.mem.read s.pc) s.pc)) := by
  by_cases hop : s.mem.read s.pc ∈ definedOpcodes
  · obtain ⟨i, rest, h⟩ := decode_of_mem_definedOpcodes hop (s.mem.read (s.pc + 1#16))
      (s.mem.read (s.pc + 2#16)) []
    exact .inl ⟨i, rest, h, hop, (step_of_decode h).trans (exec_eq_completed _ _)⟩
  · exact .inr ⟨hop, step_of_undefined hop⟩

theorem step_eq_next {s t : State} (h : step s = .next t) :
    ∃ i rest, decode s.codeBytes = .ok i rest ∧ t = completed i (s.afterFetch i) := by
  obtain ⟨i, rest, hdec, -, hstep⟩ | ⟨-, hstep⟩ := step_completes_or_faults s
  · cases hstep.symm.trans h
    exact ⟨i, rest, hdec, rfl⟩
  · cases hstep.symm.trans h

theorem step_eq_fault {s : State} {f : Fault} (h : step s = .fault f) :
    s.mem.read s.pc ∉ definedOpcodes ∧ f = .decodeFault (s.mem.read s.pc) s.pc := by
  obtain ⟨i, rest, -, -, hstep⟩ | ⟨hop, hstep⟩ := step_completes_or_faults s
  · cases hstep.symm.trans h
  · cases hstep.symm.trans h
    exact ⟨hop, rfl⟩

/-- The instruction at PC is the only one a completed step can have run. -/
theorem eq_completed_of_decode {s t : State} {i : Instr} {rest : List Byte}
    (hdec : decode s.codeBytes = .ok i rest) (h : step s = .next t) :
    t = completed i (s.afterFetch i) := by
  cases ((step_of_decode hdec).trans (exec_eq_completed _ _)).symm.trans h
  rfl

/-- Settles O25, by the two cases of a step. -/
theorem stepCompletesExactlyOnDefinedOpcodes : Obligations.StepCompletesExactlyOnDefinedOpcodes := by
  refine fun s => ⟨fun hop => ?_, step_of_undefined⟩
  obtain ⟨i, rest, -, -, hstep⟩ | ⟨hundef, -⟩ := step_completes_or_faults s
  · exact ⟨_, hstep⟩
  · exact absurd hop hundef

/-! ### What a completed step writes -/

theorem nextPc_of_not_jump {i : Instr} (h : i.operation ≠ .jmp) (s : State) : nextPc i s = s.pc := by
  cases i
  case jmpAbs | jmpInd => exact absurd rfl h
  all_goals rfl

/-- Settles O26: the fetch moves PC past the instruction, and only a jump moves it again. -/
theorem pcAfterAStep : Obligations.PcAfterAStep := by
  intro s t i rest hdec h
  have hlen := length_le_three hdec
  rw [eq_completed_of_decode hdec h, completed_pc]
  refine ⟨fun hjmp => ?_, fun w hw => by rw [hw, nextPc]⟩
  rw [nextPc_of_not_jump hjmp, State.afterFetch, BitVec.toNat_add, BitVec.toNat_ofNat]
  omega

/-- Settles O27, field by field of the completed state. -/
theorem noStepWritesMemoryOrUnusedState : Obligations.NoStepWritesMemoryOrUnusedState := by
  intro s t h
  obtain ⟨i, rest, -, rfl⟩ := step_eq_next h
  rw [completed_flags_frame]
  exact ⟨completed_mem, fun _ => by rw [completed_mem]; rfl, completed_sp, rfl, rfl, rfl, rfl, rfl⟩

/-- The opcodes that write each register (10_state.md R23, R24, R25). -/
def writersOf : Reg → List Byte
  | .a => [0xA9#8, 0xA5#8, 0xB5#8, 0xAD#8, 0xBD#8, 0xB9#8, 0xA1#8, 0xB1#8]
  | .x => [0xA2#8, 0xA6#8, 0xB6#8, 0xAE#8, 0xBE#8, 0xE8#8]
  | .y => [0xA0#8, 0xA4#8, 0xB4#8, 0xAC#8, 0xBC#8, 0xC8#8]

theorem opcode_mem_writersOf {i : Instr} {r : Reg} (h : destination i = some r) :
    i.opcode ∈ writersOf r := by
  cases i <;> cases h <;> simp [Instr.opcode, writersOf]

theorem mem_writersOf_of_changed {s t : State} (r : Reg) (h : step s = .next t)
    (hne : readReg r t ≠ readReg r s) : s.mem.read s.pc ∈ writersOf r := by
  obtain ⟨i, rest, hdec, rfl⟩ := step_eq_next h
  rw [opcode_of_decode hdec]
  by_contra hmem
  rw [readReg_completed, if_neg (mt opcode_mem_writersOf hmem)] at hne
  exact hne (by cases r <;> rfl)

/-- Settles O28: a changed register is the destination of the instruction at PC, and a jump keeps the
flags. -/
theorem onlyTheirInstructionsWriteRegisters : Obligations.OnlyTheirInstructionsWriteRegisters := by
  refine fun s t h => ⟨mem_writersOf_of_changed .a h, mem_writersOf_of_changed .x h,
    mem_writersOf_of_changed .y h, fun hne => ?_⟩
  obtain ⟨i, rest, hdec, rfl⟩ := step_eq_next h
  have hdest : destination i ≠ none := fun hd => hne (completed_flags_of_jump hd _)
  rw [opcode_of_decode hdec]
  cases i
  case jmpAbs | jmpInd => exact absurd rfl hdest
  all_goals exact ⟨by simp [Instr.opcode], by simp [Instr.opcode]⟩

/-! ### What a completed step reads -/

theorem dataReads_afterFetch (i : Instr) (s : State) : dataReads i (s.afterFetch i) = dataReads i s :=
  dataReads_congr (s := s) (u := s.afterFetch i) rfl rfl rfl i

/-- A load reads its effective address last (41_addressing_modes.md R113). -/
theorem getLast?_dataAddresses {i : Instr} {s : State} {ea : Nat} (h : effectiveAddress i s = some ea) :
    (dataAddresses i s).getLast? = some ea := by
  cases i
  case ldaImm | ldxImm | ldyImm | jmpAbs | jmpInd | inx | iny => cases h
  all_goals exact h

theorem length_add_dataReads (i : Instr) (s : State) :
    i.length + (dataReads i s).length = 1 + resolutionReads i.operation i.mode := by
  cases i <;> rfl

/-- Every read gives the byte memory holds (20_memory.md R51). -/
theorem readsAgree_codeReads_append_dataReads (i : Instr) (s : State) (n : Nat) :
    ∀ e ∈ s.codeReads.take n ++ dataReads i s, s.mem.read e.1 = e.2 := by
  intro e he
  obtain hcode | hdata := List.mem_append.mp he
  · have := List.mem_of_mem_take hcode
    simp only [State.codeReads, List.mem_cons, List.not_mem_nil, or_false] at this
    obtain rfl | rfl | rfl := this <;> rfl
  · obtain ⟨n, -, rfl⟩ := List.mem_map.mp hdata
    rfl

theorem step_reads {s t : State} {i : Instr} {rest : List Byte} (hdec : decode s.codeBytes = .ok i rest)
    (h : step s = .next t) : t.reads = s.codeReads.take i.length ++ dataReads i s := by
  rw [eq_completed_of_decode hdec h, completed_reads, dataReads_afterFetch]
  rfl

theorem step_reads_length {s t : State} {i : Instr} {rest : List Byte}
    (hdec : decode s.codeBytes = .ok i rest) (h : step s = .next t) :
    t.reads.length = 1 + resolutionReads i.operation i.mode := by
  have hlen : (s.codeReads.take i.length).length = i.length :=
    List.length_take_of_le (length_le_three hdec)
  rw [step_reads hdec h, List.length_append, hlen, length_add_dataReads]

/-- Settles O30, from the whole list of reads (`step_reads`). -/
theorem busReadsOfAStep : Obligations.BusReadsOfAStep := by
  intro s t i rest hdec h
  refine ⟨step_reads hdec h, fun ea hea => ?_, step_reads_length hdec h, ?_⟩
  · rw [step_reads hdec h, dataReads, List.getLast?_append, List.getLast?_map,
      getLast?_dataAddresses hea]
    rfl
  · rw [step_reads hdec h]
    exact readsAgree_codeReads_append_dataReads i s _

/-! ### What no step reads -/

/-- Settles O29: both states decode one instruction, whose result, reads, count and next PC come from X,
Y, memory and PC alone; every other field of each is its own. -/
theorem unreadStateInfluencesNothing : Obligations.UnreadStateInfluencesNothing := by
  intro s u hpc hx hy hmem
  have hcode : u.codeBytes = s.codeBytes := by simp only [State.codeBytes, hpc, hmem]
  have hcodeReads : u.codeReads = s.codeReads := by simp only [State.codeReads, hpc, hmem]
  constructor
  · intro f h
    obtain ⟨hop, rfl⟩ := step_eq_fault h
    rw [← hpc, ← hmem] at hop ⊢
    exact step_of_undefined hop
  · intro t h
    obtain ⟨i, rest, hdec, rfl⟩ := step_eq_next h
    have hx' : (u.afterFetch i).x = (s.afterFetch i).x := hx
    have hy' : (u.afterFetch i).y = (s.afterFetch i).y := hy
    have hmem' : (u.afterFetch i).mem = (s.afterFetch i).mem := hmem
    have hpc' : (u.afterFetch i).pc = (s.afterFetch i).pc := congrArg (· + _) hpc
    have hreads' : (u.afterFetch i).reads = (s.afterFetch i).reads := congrArg (List.take _) hcodeReads
    refine ⟨completed i (u.afterFetch i), (step_of_decode (hcode ▸ hdec)).trans (exec_eq_completed _ _),
      ?_, readReg_completed_congr hx' hy' hmem' i .x hx', readReg_completed_congr hx' hy' hmem' i .y hy',
      ?_, ?_, ?_, completed_sp, completed_sp, completed_a_alike_or_kept hx' hy' hmem' i,
      completed_flags_alike_or_kept hx' hy' hmem' i, completed_flags_frame i _, completed_flags_frame i _⟩
    · rw [completed_pc, completed_pc, nextPc_congr hx' hy' hmem' hpc']
    · rw [completed_mem, completed_mem, hmem']
    · rw [completed_reads, completed_reads, dataReads_congr hx' hy' hmem', hreads']
    · rw [completed_report, completed_report, stepCycles_congr hx' hy' hmem']

end Sys2Proof.Machine
end

section
/-! The engine of 40_execute_engine.md R82 is the step: its resolvers fetch the same operands, its
handlers leave the same state, and its micro-step costs are the reported count. -/

namespace Sys2Proof.Machine

/-! ### The operand bytes where the resolvers fetch them -/

section Decoded

variable {s : State} {i : Instr} {rest : List Byte} (h : decode s.codeBytes = .ok i rest)
include h

theorem operands_of_decode :
    i.operands ++ rest = [s.mem.read (s.pc + 1#16), s.mem.read (s.pc + 1#16 + 1#16)] := by
  rw [BitVec.add_assoc]
  exact (decode_cons_eq_ok_iff.mp h).2.symm

theorem read_eq_byte_operand {b : Byte} (hops : i.operands = [b]) :
    s.mem.read (s.pc + 1#16) = b := by
  have := operands_of_decode h
  rw [hops] at this
  exact (List.cons.inj this).1.symm

theorem join_read_eq_word_operand {w : Addr} (hops : i.operands = [loByte w, hiByte w]) :
    join (s.mem.read (s.pc + 1#16 + 1#16)) (s.mem.read (s.pc + 1#16)) = w := by
  have := operands_of_decode h
  rw [hops] at this
  obtain ⟨hlo, htail⟩ := List.cons.inj this
  obtain ⟨hhi, -⟩ := List.cons.inj htail
  rw [← hlo, ← hhi, join_hiByte_loByte]

end Decoded

/-! ### The handlers -/

/-- The costs of a mode that charges a crossing: what came before the index addition, its penalty, and the
data read (40_execute_engine.md R91). -/
theorem add_penalty_add_one_eq_cyclesOf {op : Byte} {n : Nat} (hbase : cycleBase op = n + 1)
    (hcharges : chargesCrossing op = true) (crossed : Bool) :
    n + (if crossed then Config.pageCrossPenalty else 0) + 1 = cyclesOf cycleBase op crossed := by
  rw [cyclesOf_of_charges hcharges, hbase, Config.pageCrossPenalty]
  omega

/-- The (Indirect),Y handler through the decoded resolver: the pointer reads leave Y as it was, so the index
added after them is the one `resolveIndY` takes before them (41_addressing_modes.md R110). -/
theorem microHandler_lda_indirectY (m : Micro) :
    let b := microFetch8 m
    let v := readAt (resolveIndY b.1 b.2.state)
    microHandler .lda .indirectY m = some
      ⟨setZN v.value (writeReg .a v.value v.state), v.crossed,
        b.2.cost + 2 + (if v.crossed then Config.pageCrossPenalty else 0) + 1⟩ := rfl

/-- After the opcode fetch, the handler of an instruction's operation in its mode ends where its meaning
does, but for the count, and the costs charged by then are the count. -/
theorem microHandler_of_decode {s : State} {i : Instr} {rest : List Byte}
    (h : decode s.codeBytes = .ok i rest) :
    ∃ m, microHandler i.operation i.mode (microFetch8 ⟨beginStep s, false, 0⟩).2 = some m ∧
      exec i (fetchBytes i.length (beginStep s)).2 =
        .next (retire i.opcode m.crossed m.state) ∧
      m.cost = cyclesOf cycleBase i.opcode m.crossed := by
  cases i
  case inx | iny => exact ⟨_, rfl, rfl, rfl⟩
  case ldaAbs | ldxAbs | ldyAbs | jmpAbs | jmpInd =>
    obtain rfl := join_read_eq_word_operand h rfl
    exact ⟨_, rfl, rfl, rfl⟩
  case ldaAbsX | ldaAbsY | ldxAbsY | ldyAbsX =>
    obtain rfl := join_read_eq_word_operand h rfl
    exact ⟨_, rfl, rfl, add_penalty_add_one_eq_cyclesOf (n := 3) rfl rfl _⟩
  case ldaIndY =>
    obtain rfl := read_eq_byte_operand h rfl
    exact ⟨_, microHandler_lda_indirectY _, rfl, add_penalty_add_one_eq_cyclesOf (n := 4) rfl rfl _⟩
  all_goals
    obtain rfl := read_eq_byte_operand h rfl
    exact ⟨_, rfl, rfl, rfl⟩

/-! ### The whole step -/

/-- On an instruction the engine retires, under any CYCLE_BASE, in the state the meaning completes in but
for the count. -/
theorem engineStep_of_decode {s : State} {i : Instr} {rest : List Byte}
    (h : decode s.codeBytes = .ok i rest) :
    ∃ m, (∀ base, engineStep base s = microRetire base i.opcode m) ∧
      step s = .next (retire i.opcode m.crossed m.state) ∧
      m.cost = cyclesOf cycleBase i.opcode m.crossed := by
  obtain ⟨m, hm, hexec, hcost⟩ := microHandler_of_decode h
  obtain ⟨d, hd, hop, hmode⟩ := opTable_opcode i
  have hfetched : (microFetch8 ⟨beginStep s, false, 0⟩).1 = i.opcode := opcode_of_decode h
  refine ⟨m, fun base => ?_, ?_, hcost⟩
  · simp only [engineStep, hfetched, hd, hop, hmode, hm]
  · rw [step_of_decode h, ← hexec, fetchBytes_length_beginStep h]

/-- On a byte that is no opcode it faults in `afterFault`, under any CYCLE_BASE. -/
theorem engineStep_of_undefined {s : State} (h : s.mem.read s.pc ∉ definedOpcodes)
    (base : Byte → Nat) :
    engineStep base s = ⟨afterFault s, .err (.decodeFault (s.mem.read s.pc) s.pc), 1⟩ := by
  have hnone : opTable (microFetch8 ⟨beginStep s, false, 0⟩).1 = none := opTable_eq_none h
  simp only [engineStep, hnone]
  rfl

/-- The engine, said once: it retires with the count as its cost, or faults, and CYCLE_BASE decides
neither. -/
theorem engineStep_retires_or_faults (s : State) :
    (∃ op m, (∀ base, engineStep base s = microRetire base op m) ∧
      step s = .next (retire op m.crossed m.state) ∧
      m.cost = cyclesOf cycleBase op m.crossed) ∨
    (step s = .fault (.decodeFault (s.mem.read s.pc) s.pc) ∧
      ∀ base, engineStep base s =
        ⟨afterFault s, .err (.decodeFault (s.mem.read s.pc) s.pc), 1⟩) := by
  obtain ⟨i, rest, hdec, -, -⟩ | ⟨hop, hstep⟩ := step_completes_or_faults s
  · exact .inl ⟨i.opcode, engineStep_of_decode hdec⟩
  · exact .inr ⟨hstep, engineStep_of_undefined hop⟩

/-- A fault of the engine is the step's, in `afterFault`. -/
theorem engineStep_eq_err {base : Byte → Nat} {s : State} {f : Fault}
    (h : (engineStep base s).result = .err f) :
    step s = .fault f ∧ (engineStep base s).state = afterFault s := by
  obtain ⟨op, m, hengine, -, -⟩ | ⟨hstep, hengine⟩ := engineStep_retires_or_faults s
  · rw [hengine] at h
    cases h
  · rw [hengine] at h ⊢
    cases h
    exact ⟨hstep, rfl⟩

/-- Settles O31, in both cases of the engine. -/
theorem stepIsTheMicroStepEngine : Obligations.StepIsTheMicroStepEngine := by
  intro s
  obtain ⟨op, m, hengine, hstep, -⟩ | ⟨hstep, hengine⟩ := engineStep_retires_or_faults s
  · rw [hengine, hstep]
    rfl
  · rw [hengine, hstep]
    rfl

/-- Settles O32: the costs charged by the time the engine retires are the count it writes. -/
theorem microStepCostsSumToTheReport : Obligations.MicroStepCostsSumToTheReport := by
  intro s n h
  obtain ⟨op, m, hengine, -, hcost⟩ | ⟨-, hengine⟩ := engineStep_retires_or_faults s
  · rw [hengine] at h ⊢
    cases h
    exact ⟨hcost, rfl⟩
  · rw [hengine] at h
    cases h

/-- Settles O33: CYCLE_BASE enters when the engine retires, and there only the count. -/
theorem cycleBaseReachesOnlyTheReport : Obligations.CycleBaseReachesOnlyTheReport := by
  intro base base' s
  obtain ⟨op, m, hengine, -, -⟩ | ⟨-, hengine⟩ := engineStep_retires_or_faults s
  · rw [hengine, hengine]
    exact ⟨rfl, rfl, fun _ => ⟨nofun, nofun⟩⟩
  · rw [hengine, hengine]
    exact ⟨rfl, rfl, fun _ => Iff.rfl⟩

/-- Settles O34: the state after a fault is `afterFault`. -/
theorem decodeFaultChangesNothing : Obligations.DecodeFaultChangesNothing := by
  intro base s f h
  rw [(engineStep_eq_err h).2]
  exact ⟨afterFault_architectural, afterFault_pc, afterFault_report⟩

/-- A step begins in the same state after a fault as before it. -/
theorem beginStep_afterFault (s : State) : beginStep (afterFault s) = beginStep s := rfl

theorem step_afterFault (s : State) : step (afterFault s) = step s := by
  simp only [step, beginStep_afterFault, afterFault_pc]

theorem engineStep_afterFault (base : Byte → Nat) (s : State) :
    engineStep base (afterFault s) = engineStep base s := by
  simp only [engineStep, beginStep_afterFault, afterFault_pc]

/-- Settles O35: a fault leaves `afterFault`, from which a step begins as it did before. -/
theorem decodeFaultRepeats : Obligations.DecodeFaultRepeats := by
  intro base s f h
  obtain ⟨hstep, hstate⟩ := engineStep_eq_err h
  rw [hstate, engineStep_afterFault, afterStep_fault hstep, step_afterFault]
  exact ⟨h, hstep⟩

/-- Settles O48, in both cases of the engine. -/
theorem stateAfterACallIsTheEngines : Obligations.StateAfterACallIsTheEngines := by
  refine fun s => ⟨?_, fun f h => ?_⟩
  · obtain ⟨op, m, hengine, hstep, -⟩ | ⟨hstep, hengine⟩ := engineStep_retires_or_faults s
    · rw [hengine, afterStep_next hstep]
      rfl
    · rw [hengine, afterStep_fault hstep]
  · rw [afterStep_fault h]
    exact ⟨afterFault_architectural, afterFault_reads, afterFault_report⟩

end Sys2Proof.Machine
end

section
/-! Reading memory after a write, and memories that read alike (20_memory.md R40 to R42). -/

namespace Sys2Proof.Machine

@[simp] theorem Memory.cellAt_cons {k key : Nat} {w : Byte} {rest : Memory} :
    Memory.cellAt ((k, w) :: rest) key = if k = key then w else rest.cellAt key := rfl

/-- A cell put in front of a memory that does not list its key. -/
theorem Memory.cellAt_consCell {key : Nat} {v : Byte} {m : Memory}
    (h : m.cellAt key = Config.unwrittenByte) (key' : Nat) :
    (Memory.consCell key v m).cellAt key' = if key' = key then v else m.cellAt key' := by
  unfold Memory.consCell
  split
  · next hv =>
    subst hv
    split
    · next hkey => rw [hkey, h]
    · rfl
  · rw [Memory.cellAt_cons]
    simp only [eq_comm]

theorem Memory.cellAt_put {lo : Nat} {m : Memory} (h : m.wfFrom lo = true) (key : Nat) (v : Byte)
    (key' : Nat) : (m.put key v).cellAt key' = if key' = key then v else m.cellAt key' := by
  induction m generalizing lo with
  | nil => exact Memory.cellAt_consCell rfl key'
  | cons c rest ih =>
    obtain ⟨k, w⟩ := c
    obtain ⟨-, hk, hw, hrest⟩ := Memory.wfFrom_cons.mp h
    unfold Memory.put
    split
    · next hlt =>
      have hfrom : Memory.wfFrom k ((k, w) :: rest) = true :=
        Memory.wfFrom_cons.mpr ⟨le_rfl, hk, hw, hrest⟩
      exact Memory.cellAt_consCell (Memory.cellAt_below hfrom hlt) key'
    · split
      · next heq =>
        subst heq
        rw [Memory.cellAt_consCell (Memory.cellAt_below hrest (Nat.lt_succ_self k)), Memory.cellAt_cons]
        split
        · rfl
        · next hne => rw [if_neg (Ne.symm hne)]
      · next hne =>
        rw [Memory.cellAt_cons, Memory.cellAt_cons, ih hrest]
        split
        · next heq => rw [if_neg (heq ▸ hne)]
        · rfl

/-- Settles O36: a write is a put at the address's number. -/
theorem readAfterWrite : Obligations.ReadAfterWrite := by
  intro m addr addr' v h
  have hput := Memory.cellAt_put h addr.toNat v addr'.toNat
  simp only [BitVec.toNat_inj] at hput
  exact hput

/-- A listed key reads as its cell, which is not an unwritten byte. -/
theorem Memory.cellAt_head_ne {lo k : Nat} {w : Byte} {rest : Memory}
    (h : Memory.wfFrom lo ((k, w) :: rest) = true) :
    Memory.cellAt ((k, w) :: rest) k ≠ Config.unwrittenByte := by
  rw [Memory.cellAt_cons, if_pos rfl]
  exact (Memory.wfFrom_cons.mp h).2.2.1

/-- Of two canonical memories that read alike, neither lists a first key below the other's. -/
theorem Memory.head_le {lo lo' k k' : Nat} {w w' : Byte} {rest rest' : Memory}
    (h : Memory.wfFrom lo ((k, w) :: rest) = true) (h' : Memory.wfFrom lo' ((k', w') :: rest') = true)
    (hcells : Memory.cellAt ((k, w) :: rest) k = Memory.cellAt ((k', w') :: rest') k) : k' ≤ k := by
  by_contra hlt
  obtain ⟨-, htail'⟩ := Memory.wfFrom_cons.mp h'
  have hfrom' : Memory.wfFrom k' ((k', w') :: rest') = true := Memory.wfFrom_cons.mpr ⟨le_rfl, htail'⟩
  exact Memory.cellAt_head_ne h (hcells.trans (Memory.cellAt_below hfrom' (Nat.lt_of_not_le hlt)))

/-- Canonical memories with the same cells are the same list, by induction along both. -/
theorem Memory.eq_of_cellAt_eq {lo lo' : Nat} {m m' : Memory} (h : m.wfFrom lo = true)
    (h' : m'.wfFrom lo' = true) (hcells : ∀ key < Config.memorySize, m.cellAt key = m'.cellAt key) :
    m = m' := by
  induction m generalizing lo lo' m' with
  | nil =>
    cases m' with
    | nil => rfl
    | cons c' rest' =>
      have hk' := (Memory.wfFrom_cons.mp h').2.1
      exact absurd (hcells _ hk').symm (Memory.cellAt_head_ne h')
  | cons c rest ih =>
    obtain ⟨k, w⟩ := c
    obtain ⟨-, hk, -, hrest⟩ := Memory.wfFrom_cons.mp h
    cases m' with
    | nil => exact absurd (hcells _ hk) (Memory.cellAt_head_ne h)
    | cons c' rest' =>
      obtain ⟨k', w'⟩ := c'
      obtain ⟨-, hk', -, hrest'⟩ := Memory.wfFrom_cons.mp h'
      obtain rfl : k = k' := le_antisymm (Memory.head_le h' h (hcells k' hk').symm)
        (Memory.head_le h h' (hcells k hk))
      have hw := hcells k hk
      rw [Memory.cellAt_cons, Memory.cellAt_cons, if_pos rfl, if_pos rfl] at hw
      have htail : rest = rest' := ih hrest hrest' fun key hkey => by
        by_cases heq : k = key
        · subst heq
          rw [Memory.cellAt_below hrest (Nat.lt_succ_self k),
            Memory.cellAt_below hrest' (Nat.lt_succ_self k)]
        · have := hcells key hkey
          rwa [Memory.cellAt_cons, Memory.cellAt_cons, if_neg heq, if_neg heq] at this
      rw [hw, htail]

/-- Settles O37: every key below 65536 is the number of an address. -/
theorem equalReadsMeanEqualMemories : Obligations.EqualReadsMeanEqualMemories := by
  intro m m' h h' hreads
  refine Memory.eq_of_cellAt_eq h h' fun key hkey => ?_
  have := hreads (BitVec.ofNat 16 key)
  rwa [Memory.read, Memory.read, BitVec.toNat_ofNat, Nat.mod_eq_of_lt (show key < 2 ^ 16 from hkey)] at this

/-! ### A host write before the next step -/

theorem hostWrite_read {s : State} (h : s.mem.wf = true) (addr addr' : Addr) (v : Byte) :
    (hostWrite addr v s).mem.read addr' = if addr' = addr then v else s.mem.read addr' :=
  readAfterWrite s.mem addr addr' v h

theorem hostWrite_read_same {s : State} (h : s.mem.wf = true) (addr : Addr) (v : Byte) :
    (hostWrite addr v s).mem.read addr = v := by
  rw [hostWrite_read h, if_pos rfl]

/-- The byte and the read of the `k`-th fetch of a step. -/
theorem getElem?_codeReads (s : State) {k : Nat} (hk : k < 3) :
    s.codeReads[k]? = some (s.pc + BitVec.ofNat 16 k, s.mem.read (s.pc + BitVec.ofNat 16 k)) := by
  interval_cases k <;> simp [State.codeReads]

theorem codeBytes_eq_map (s : State) : s.codeBytes = s.codeReads.map Prod.snd := rfl

/-- A completed step fetched the instruction's bytes first, each recorded in its place. -/
theorem step_getElem?_reads {s t : State} {i : Instr} {rest : List Byte}
    (hdec : decode s.codeBytes = .ok i rest) (h : step s = .next t) {k : Nat} (hk : k < i.length) :
    t.reads[k]? = some (s.pc + BitVec.ofNat 16 k, s.mem.read (s.pc + BitVec.ofNat 16 k)) := by
  have hlen := length_le_three hdec
  have hcode : k < (s.codeReads.take i.length).length := by
    rw [List.length_take_of_le hlen]
    exact hk
  rw [step_reads hdec h, List.getElem?_append_left hcode, List.getElem?_take_of_lt hk,
    getElem?_codeReads s (by omega)]

/-- The `k`-th byte of the instruction at PC is the one memory holds there. -/
theorem encode_getElem? {s : State} {i : Instr} {rest : List Byte}
    (hdec : decode s.codeBytes = .ok i rest) {k : Nat} (hk : k < i.length) :
    (encode i)[k]? = some (s.mem.read (s.pc + BitVec.ofNat 16 k)) := by
  have hlen := length_le_three hdec
  rw [← take_codeBytes hdec, List.getElem?_take_of_lt hk, codeBytes_eq_map, List.getElem?_map,
    getElem?_codeReads s (by omega)]
  rfl

theorem length_pos (i : Instr) : 0 < i.length := by
  rw [i.length_eq_add_operands]
  omega

theorem step_head?_reads {s t : State} (h : step s = .next t) :
    t.reads.head? = some (s.pc, s.mem.read s.pc) := by
  obtain ⟨i, rest, hdec, -⟩ := step_eq_next h
  rw [List.head?_eq_getElem?, step_getElem?_reads hdec h (length_pos i)]
  simp

/-- 0xE8 is INX whatever follows it (30_encoding.md R66). -/
theorem step_of_inx_opcode {s : State} (h : s.mem.read s.pc = 0xE8#8) :
    ∃ t, step s = .next t ∧ t.x = s.x + 1#8 := by
  have hdec : decode s.codeBytes =
      .ok .inx [s.mem.read (s.pc + 1#16), s.mem.read (s.pc + 2#16)] :=
    decode_cons_eq_ok_iff.mpr ⟨h, rfl⟩
  exact ⟨_, step_of_decode hdec, rfl⟩

/-- Settles O38: the next step decodes and records what memory holds after the write, which at the written
address is `v`. -/
theorem nextFetchSeesAHostWrite : Obligations.NextFetchSeesAHostWrite := by
  intro s v hwf
  have hread : (hostWrite s.pc v s).mem.read (hostWrite s.pc v s).pc = v := hostWrite_read_same hwf s.pc v
  refine ⟨fun hv => ?_, fun hv => ?_, fun hv => ?_, fun k i rest => ?_⟩
  · have hstep := step_of_undefined (hread.symm ▸ hv)
    rwa [hread] at hstep
  · obtain ⟨t, hstep⟩ := (stepCompletesExactlyOnDefinedOpcodes _).1 (hread.symm ▸ hv)
    refine ⟨t, hstep, ?_⟩
    rw [step_head?_reads hstep, hread, hostWrite_pc]
  · exact step_of_inx_opcode (hread.trans hv)
  · intro addr u hdec hk
    have hbyte : u.mem.read (u.pc + BitVec.ofNat 16 k) = v := hostWrite_read_same hwf addr v
    have hstep := step_of_decode hdec
    refine ⟨?_, hstep, _, hstep.trans (exec_eq_completed _ _), ?_⟩
    · rw [encode_getElem? hdec hk, hbyte]
    · rw [step_getElem?_reads hdec (hstep.trans (exec_eq_completed _ _)) hk, hbyte]
      rfl

end Sys2Proof.Machine
end

section
/-! The invariants of the machine, and its runs (10_state.md R26, R32, R35; 40_execute_engine.md R94 to
R98). -/

namespace Sys2Proof.Machine

/-! ### Reset -/

/-- Settles O39, field by field of `resetCore`. -/
theorem resetOperation : Obligations.ResetOperation :=
  fun _ => ⟨resetCore_pc, resetCore_sp, resetCore_flags, resetCore_a, resetCore_x, resetCore_y,
    fun _ => by rw [resetCore_mem], resetCore_reads, resetCore_report⟩

/-- Settles O40: the power-on state is written out, and lists no cell of memory. -/
theorem resetFollowsPowerOn : Obligations.ResetFollowsPowerOn :=
  ⟨rfl, rfl, rfl, rfl, rfl, rfl, rfl, fun _ => rfl⟩

/-- Settles O41: nothing is recorded yet, and memory lists nothing. -/
theorem resetSatisfiesTheInvariant : Obligations.ResetSatisfiesTheInvariant where
  mem_wf := reset_mem_wf
  unused_flags := ⟨rfl, rfl, rfl, rfl, rfl⟩
  sp_reset := rfl
  reads_few := Nat.zero_le 5
  reads_agree := nofun
  report_range := nofun

/-! ### What a step keeps -/

theorem State.unusedFlagsClear_of_step {s t : State} (hclear : s.unusedFlagsClear)
    (h : step s = .next t) : t.unusedFlagsClear := by
  obtain ⟨-, -, -, hc, hi, hd, hb, hv⟩ := noStepWritesMemoryOrUnusedState s t h
  unfold State.unusedFlagsClear
  rw [hc, hi, hd, hb, hv]
  exact hclear

theorem resolutionReads_le_four (o : Operation) (m : Mode) : resolutionReads o m ≤ 4 := by
  cases o <;> cases m <;> decide

/-- Settles O42: memory, SP and the five flags by the frame of a step (O27), the reads by O30, the count by
its bounds. -/
theorem stepKeepsTheInvariant : Obligations.StepKeepsTheInvariant := by
  intro s t hinv h
  obtain ⟨hmem, -, hsp, -⟩ := noStepWritesMemoryOrUnusedState s t h
  obtain ⟨i, rest, hdec, ht⟩ := step_eq_next h
  obtain ⟨-, -, hlen, hagree⟩ := busReadsOfAStep s t i rest hdec h
  refine ⟨hmem ▸ hinv.mem_wf, State.unusedFlagsClear_of_step hinv.unused_flags h,
    hsp.trans hinv.sp_reset, ?_, ?_, ?_⟩
  · have := resolutionReads_le_four i.operation i.mode
    omega
  · unfold State.readsAgree
    rw [hmem]
    exact hagree
  · intro n hn
    rw [ht, completed_report] at hn
    cases hn
    exact stepCycles_bounds i _

theorem runInv_afterStep {s : State} (hinv : s.RunInv) : (afterStep s).RunInv := by
  obtain ⟨i, rest, -, -, hstep⟩ | ⟨-, hstep⟩ := step_completes_or_faults s
  · obtain ⟨hmem, -, hsp, -⟩ := noStepWritesMemoryOrUnusedState s _ hstep
    rw [afterStep_next hstep]
    exact ⟨State.unusedFlagsClear_of_step hinv.unused_flags hstep, hsp ▸ hinv.sp_initial,
      hmem ▸ hinv.mem_wf⟩
  · rw [afterStep_fault hstep]
    exact ⟨hinv.unused_flags, hinv.sp_initial, hinv.mem_wf⟩

theorem runInv_powerOn : State.powerOn.RunInv :=
  ⟨⟨rfl, rfl, rfl, rfl, rfl⟩, .inl rfl, powerOn_mem_wf⟩

/-- Settles O47, action by action. -/
theorem hostActionsKeepTheRunInvariant : Obligations.HostActionsKeepTheRunInvariant := by
  refine ⟨runInv_powerOn, fun act s hinv => ?_⟩
  cases act with
  | powerOn => exact runInv_powerOn
  | reset => exact ⟨⟨rfl, rfl, rfl, rfl, rfl⟩, .inr rfl, hinv.mem_wf⟩
  | write addr v => exact ⟨hinv.unused_flags, hinv.sp_initial, hostWrite_wf hinv.mem_wf⟩
  | step => exact runInv_afterStep hinv

/-! ### Runs -/

theorem runInv_runActions (acts : List HostAction) {s : State} (hinv : s.RunInv) :
    (runActions acts s).RunInv := by
  induction acts generalizing s with
  | nil => exact hinv
  | cons act rest ih => exact ih (hostActionsKeepTheRunInvariant.2 act s hinv)

/-- Settles O43, by O47 along the list of actions. -/
theorem unusedFlagsStayClearOnEveryRun : Obligations.UnusedFlagsStayClearOnEveryRun := by
  intro acts
  obtain ⟨hflags, hsp, hmem⟩ := runInv_runActions acts runInv_powerOn
  exact ⟨hflags, hsp, hmem⟩

/-- Settles O44, by induction on the number of steps: a step completes, and keeps memory, or faults. -/
theorem runsEndOnlyByDecodeFault : Obligations.RunsEndOnlyByDecodeFault := by
  intro n
  induction n with
  | zero => exact fun s => .inl ⟨s, rfl⟩
  | succ n ih =>
    intro s
    obtain ⟨i, rest, -, -, hstep⟩ | ⟨hop, hstep⟩ := step_completes_or_faults s
    · have hrun := core_run_next hstep n
      obtain ⟨t, ht⟩ | ⟨op, pc, hfault, hop, hread⟩ := ih (completed i (s.afterFetch i))
      · exact .inl ⟨t, hrun.trans ht⟩
      · rw [completed_mem] at hread
        exact .inr ⟨op, pc, hrun.trans hfault, hop, hread⟩
    · exact .inr ⟨_, _, core_run_fault hstep n, hop, rfl⟩

/-- One step of a JMP to its own address (43_jumps.md R140). -/
theorem step_selfJump {s : State} (hop : s.mem.read s.pc = 0x4C#8)
    (hlo : s.mem.read (s.pc + 1#16) = loByte s.pc) (hhi : s.mem.read (s.pc + 2#16) = hiByte s.pc) :
    ∃ t, step s = .next t ∧ t.architectural = s.architectural := by
  have hdec : decode s.codeBytes = .ok (.jmpAbs s.pc) [] := by
    rw [State.codeBytes, hop, hlo, hhi]
    exact decode_encode_append (.jmpAbs s.pc) []
  exact ⟨_, step_of_decode hdec, rfl⟩

/-- Settles O45, by induction on the number of steps: each leaves the bytes at PC, and PC, as they were. -/
theorem selfJumpLoopsForever : Obligations.SelfJumpLoopsForever := by
  intro s hop hlo hhi n
  induction n generalizing s with
  | zero => exact ⟨s, rfl, rfl⟩
  | succ n ih =>
    obtain ⟨t, hstep, harch⟩ := step_selfJump hop hlo hhi
    have hpc : t.pc = s.pc := (congrArg State.pc harch :)
    have hmem : t.mem = s.mem := (congrArg State.mem harch :)
    rw [← hpc, ← hmem] at hop hlo hhi
    obtain ⟨w, hrun, hw⟩ := ih t hop hlo hhi
    exact ⟨w, (core_run_next hstep n).trans hrun, hw.trans harch⟩

/-- Settles O46: a completed step reports `stepCycles`, which the budget is debited by. -/
theorem budgetIsDebitedByTheReportedCount : Obligations.BudgetIsDebitedByTheReportedCount := by
  refine fun s remaining => ⟨fun t h => ?_, fun f h => by rw [h, hostBudget]⟩
  obtain ⟨i, rest, -, rfl⟩ := step_eq_next h
  refine ⟨_, completed_report, (stepCycles_bounds i _).1, ?_⟩
  rw [h, hostBudget, completed_report]
  rfl

end Sys2Proof.Machine
end
